-- ==== Sys2Proof/Word.lean ====
section
/-!
DEFINITION. The block's data types: the byte of a stream, the 7-bit payload group, the 32-bit value, the 3-bit
command code and the 35-bit command word (00_scope.md R8; 30_encoding.md R45, R55).
-/

namespace Sys2Proof

/-- One stream element, `B = 8` bits (R8, R12). -/
abbrev Byte := BitVec 8

/-- The payload of one encoded byte, `G = 7` bits (R8, R45). -/
abbrev Group := BitVec 7

/-- A value operand or result, `W = 32` bits, wrapping modulo 2^32 (R8, R12). -/
abbrev Word := BitVec 32

/-- The command code `op` of a request (R21, R56). -/
abbrev OpCode := BitVec 3

/-- A command `op[2:0] :: data[31:0]` (R55). -/
abbrev CommandWord := BitVec 35

end Sys2Proof
end

