-- ==== Sys2Proof/Config.lean ====
section
/-!
DEFINITION. The block's fixed parameters (00_scope.md R8). None may be varied by a model of this hardware. There is no
configuration state (10_state.md R16). Of the open parameters of R10, the type `E` of fault values is left open here by
`faultValue`, and the answers of the byte source and sink stand in `Machine.State`.
-/

namespace Sys2Proof.Config

/-- `W`: width of every value operand and result, in bits. -/
def valueBits : Nat := 32

/-- `G`: payload bits per encoded byte. -/
def groupBits : Nat := 7

/-- `B`: bits per stream element. -/
def byteBits : Nat := 8

/-- `NMAX`: maximum bytes per encoded value. -/
def maxBytes : Nat := 5

/-- `LASTBITS`: payload bits the fifth byte may carry. -/
def lastBits : Nat := 4

/-- `MASK5`: bits of the fifth byte that must be zero; the reading of 90_conflicts.md C1 (log entry 11). -/
def mask5 : Byte := 0xF0#8

/-- What `E`, the open type of fault values, holds (R10, D7; 93_implementation_defined.md I3): the values of this unknown
function are the fault values. It has no body, so which they are, and how many, can be neither evaluated nor proved
(log entry 1). -/
opaque faultValue : Nat → Nat

end Sys2Proof.Config
end

