-- ==== Sys2Proof/Syntax.lean ====
section
/-!
DEFINITION. The commands of the block, one constructor per row of spec/opcode_table.json (30_encoding.md R56, R57).
-/

namespace Sys2Proof

/-- A command. The two decodes carry no operand: their `data` field is ignored (R58). -/
inductive Instr where
  /-- op 000, decode-unsigned: read one encoded value from the byte source (R63). -/
  | vdecU
  /-- op 001, encode-unsigned: write the canonical encoding of the u32 value `v` (R67). -/
  | vencU (v : Word)
  /-- op 010, encode-sign: map the s32 value `v` to its zig-zag image (R71). -/
  | zzEnc (v : Word)
  /-- op 011, decode-sign: map the u32 value `u` back to a signed value (R72). -/
  | zzDec (u : Word)
  /-- op 100, decode-signed: VDEC_U with the result passed through ZZD (R74). -/
  | vdecS
  /-- op 101, encode-signed: VENC_U of the zig-zag image of the s32 value `v` (R75). -/
  | vencS (v : Word)
  /-- op 110, reserved (R57). -/
  | reserved110
  /-- op 111, reserved (R57). -/
  | reserved111
  deriving DecidableEq, Repr

/-- The row's mnemonic in spec/opcode_table.json (R56). -/
def Instr.mnemonic : Instr → String
  | .vdecU => "VDEC_U"
  | .vencU _ => "VENC_U"
  | .zzEnc _ => "ZZ_ENC"
  | .zzDec _ => "ZZ_DEC"
  | .vdecS => "VDEC_S"
  | .vencS _ => "VENC_S"
  | .reserved110 => "RESERVED"
  | .reserved111 => "RESERVED"

end Sys2Proof
end

