-- ==== Sys2Proof/WellFormed.lean ====
section
/-!
DEFINITION. Which commands are commands of the block. An operand's range is its type (R8: every operand is exactly
32 bits), so the one check is that the command code is not a reserved one (30_encoding.md R57).
-/

namespace Sys2Proof

/-- The command code of `i` is none of the reserved codes 110 and 111 (R57). -/
def Instr.wellFormed : Instr → Bool
  | .vdecU => true
  | .vencU _ => true
  | .zzEnc _ => true
  | .zzDec _ => true
  | .vdecS => true
  | .vencS _ => true
  | .reserved110 => false
  | .reserved111 => false

end Sys2Proof
end

