-- ==== Sys2Proof/Decode.lean ====
section
/-!
DEFINITION. The command format (30_encoding.md R55 to R58, R61): the decoder, the opcode table it follows, and after it
the encoder. Every 35-bit word decodes, the two reserved codes to constructors of their own; a number that is no 35-bit
word is rejected by name.
-/

namespace Sys2Proof

/-! ## Decoding -/

/-- Word bits 34:32 (R55). -/
def opField (w : CommandWord) : OpCode := w.extractLsb' 32 3

/-- Word bits 31:0 (R55). -/
def dataField (w : CommandWord) : Word := w.extractLsb' 0 32

/-- The command a word stands for: `op` alone selects it (R56, R61). The `data` of a decode or of a reserved code is
dropped here, once (R58, R57). -/
def decode (w : CommandWord) : Instr :=
  if opField w = 0b000#3 then .vdecU
  else if opField w = 0b001#3 then .vencU (dataField w)
  else if opField w = 0b010#3 then .zzEnc (dataField w)
  else if opField w = 0b011#3 then .zzDec (dataField w)
  else if opField w = 0b100#3 then .vdecS
  else if opField w = 0b101#3 then .vencS (dataField w)
  else if opField w = 0b110#3 then .reserved110
  else .reserved111

/-- Why a number is not decoded. -/
inductive DecodeError where
  /-- The number is 2^35 or more: a command is one 35-bit word (R55). -/
  | notACommandWord
  deriving DecidableEq, Repr

/-- Decode any number, bit 0 the word's least significant bit. -/
def decodeNumber (n : Nat) : Except DecodeError Instr :=
  if n < 2 ^ 35 then .ok (decode (BitVec.ofNat 35 n)) else .error .notACommandWord

/-- What the decoder reads from the `nbits` low bits of `w` (the host's numbering of a table row; the 35-bit row comes
in 40 bits). -/
def decodeTableWord (nbits w : Nat) : Option Instr :=
  match decodeNumber (w % 2 ^ nbits) with
  | .ok i => some i
  | .error _ => none

/-! ## The opcode table -/

/-- A row of spec/opcode_table.json: a word belongs to the row when its bits under `mask` are `pattern`. -/
structure OpcodeRow where
  mnemonic : String
  pattern : CommandWord
  mask : CommandWord
  deriving DecidableEq, Repr

/-- The word has the row's fixed bits. -/
def OpcodeRow.covers (r : OpcodeRow) (w : CommandWord) : Bool := w &&& r.mask == r.pattern

/-- The rows of spec/opcode_table.json, in its order (R56, R57). -/
def opcodeRows : List OpcodeRow :=
  [⟨"VDEC_U", 0x000000000#35, 0x700000000#35⟩,
   ⟨"VENC_U", 0x100000000#35, 0x700000000#35⟩,
   ⟨"ZZ_ENC", 0x200000000#35, 0x700000000#35⟩,
   ⟨"ZZ_DEC", 0x300000000#35, 0x700000000#35⟩,
   ⟨"VDEC_S", 0x400000000#35, 0x700000000#35⟩,
   ⟨"VENC_S", 0x500000000#35, 0x700000000#35⟩,
   ⟨"RESERVED", 0x600000000#35, 0x700000000#35⟩,
   ⟨"RESERVED", 0x700000000#35, 0x700000000#35⟩]

/-! ## Encoding -/

/-- The command code of each command (R56, R57). -/
def Instr.op : Instr → OpCode
  | .vdecU => 0b000#3
  | .vencU _ => 0b001#3
  | .zzEnc _ => 0b010#3
  | .zzDec _ => 0b011#3
  | .vdecS => 0b100#3
  | .vencS _ => 0b101#3
  | .reserved110 => 0b110#3
  | .reserved111 => 0b111#3

/-- The `data` field written for each command: the operand, and 00000000 where there is none (R56, R62). -/
def Instr.operand : Instr → Word
  | .vdecU => 0#32
  | .vencU v => v
  | .zzEnc v => v
  | .zzDec u => u
  | .vdecS => 0#32
  | .vencS v => v
  | .reserved110 => 0#32
  | .reserved111 => 0#32

/-- The word of a command, `op :: data` (R55). -/
def encode (i : Instr) : CommandWord := i.op ++ i.operand

end Sys2Proof
end

