-- ==== Sys2Proof/Machine/State.lean ====
section
/-!
DEFINITION. The state of the machine as plain data (10_state.md): the working registers of the two sequential units, the
requests held at their interfaces, and the external agents (requester, byte source, byte sink) as the lists of what they
still have to give and of what they have been given. ZZE and ZZD have no state (R20). There is no memory, program
counter, flag register or control register (R16, R31).
-/

namespace Sys2Proof.Machine

/-- The open type `E` (R10, D7): what a byte source or byte sink says when it fails. It is left open by
`Config.faultValue`, of which its elements are the values: nothing says which or how many they are, nor that two of them
differ, and the block never looks inside one. DESIGN CHOICE: some nonempty countable type (log entry 1). -/
structure FaultValue where
  value : Nat
  isFault : ∃ k, Config.faultValue k = value
  deriving DecidableEq, Repr

/-- The fault value number `k`, by which a state can be written out. Two numbers may name the same value. -/
def FaultValue.named (k : Nat) : FaultValue := ⟨Config.faultValue k, k, rfl⟩

/-- The byte source's answer to one `SrcPull()` (R24). -/
inductive SrcAnswer where
  /-- `Byte(b)`: the next byte of the input stream, now consumed. -/
  | byte (b : Byte)
  /-- `Fault(e)`: end of stream, an I/O error, or any other failure of the source. -/
  | fault (e : FaultValue)
  deriving DecidableEq, Repr

/-- The byte sink's answer to one `SnkPush(b)` (R25). -/
inductive SnkAnswer where
  /-- `Ack`: the byte has been appended. -/
  | ack
  /-- `Fault(e)`: a sink write failure. -/
  | fault (e : FaultValue)
  deriving DecidableEq, Repr

/-- One completed invocation of the byte sink: the byte offered, and the answer. Whether a byte answered by `Fault(e)` was
appended is the sink's affair (R25, D8). -/
structure Push where
  byte : Byte
  answer : SnkAnswer
  deriving DecidableEq, Repr

/-- The four units of the block (R1, R14). -/
inductive UnitName where
  /-- `varint_decoder_unsigned`. -/
  | dec
  /-- `varint_encoder_unsigned`. -/
  | enc
  /-- `zigzag_encoder`. -/
  | zze
  /-- `zigzag_decoder`. -/
  | zzd
  deriving DecidableEq, Repr

/-- The status of a response (R59); its codes are `Status.code`. -/
inductive Status where
  | ok
  | overflow
  | srcFault
  | sinkFault
  deriving DecidableEq, Repr

/-- A response (R23). An absent field is `none`: it has no value, and reading it is a fault (R101). -/
structure Response where
  status : Status
  data : Option Word
  err : Option FaultValue
  deriving DecidableEq, Repr

/-- A response delivered to the requester by a unit's response interface (R23, D2). -/
structure Delivery where
  source : UnitName
  response : Response
  deriving DecidableEq, Repr

/-- The three fields of a response (R23). -/
inductive ResponseField where
  | status
  | data
  | err
  deriving DecidableEq, Repr

/-- What the requester gets when it reads a field that is present. -/
inductive FieldValue where
  | status (code : BitVec 2)
  | data (v : Word)
  | err (e : FaultValue)
  deriving DecidableEq, Repr

/-- A request that DEC takes (R17, R56). -/
inductive DecRequest where
  | vdecU
  | vdecS
  deriving DecidableEq, Repr

/-- A request that ENC takes, with its operand (R17, R56). -/
inductive EncRequest where
  | vencU (v : Word)
  | vencS (v : Word)
  deriving DecidableEq, Repr

/-- A move of one agent (R17). -/
inductive Move where
  /-- REQ offers its next command to the unit the command names. -/
  | request
  /-- DEC accepts the held request at place `k` (R22). -/
  | acceptDec (k : Nat)
  /-- ENC accepts the held request at place `k` (R22). -/
  | acceptEnc (k : Nat)
  /-- SRC answers the pull of the operation in flight, and DEC makes its byte step (R63). -/
  | srcAnswer
  /-- SNK answers the push of the operation in flight, and ENC makes its byte step (R67). -/
  | snkAnswer
  /-- REQ reads a field of the response it received at place `k` (R101). -/
  | read (k : Nat) (f : ResponseField)
  deriving DecidableEq, Repr

/-- One turn: the agent that moves, and whether the reset input is asserted at that moment, in which case the move does
not happen (R94, R95). -/
structure Turn where
  reset : Bool
  move : Move
  deriving DecidableEq, Repr

/-- The state of the block and of the external agents around it. -/
structure State where
  /-- `dec_busy`: a decode operation is in flight (R18). -/
  decBusy : Bool
  /-- `dec_idx`: group index of the next byte to be pulled (R18). -/
  decIdx : BitVec 3
  /-- `dec_acc`: the accumulating value (R18). -/
  decAcc : Word
  /-- `dec_signed`: the operation in flight is VDEC_S (R18). -/
  decSigned : Bool
  /-- `enc_busy`: an encode operation is in flight (R19). -/
  encBusy : Bool
  /-- `enc_idx`: group index of the next byte to be pushed (R19). -/
  encIdx : BitVec 3
  /-- `enc_rem`: the remaining value (R19). -/
  encRem : Word
  /-- Requests held at DEC's request interface, in the order they were offered (R22, R29). -/
  decHeld : List DecRequest
  /-- Requests held at ENC's request interface, in the order they were offered (R22, R29). -/
  encHeld : List EncRequest
  /-- REQ: the commands it has still to offer, next first (R17, R21). -/
  requests : List CommandWord
  /-- REQ: the responses it has received, first received first (R23). -/
  received : List Delivery
  /-- REQ: the field values it has read, first read first (R101). -/
  taken : List FieldValue
  /-- SRC: the answers it has still to give, next first; the empty list is a source that does not answer (R24, R105). -/
  source : List SrcAnswer
  /-- The bytes consumed from the input stream, first first (R26, R38). -/
  consumed : List Byte
  /-- SNK: the answers it has still to give, next first; the empty list is a sink that does not answer (R25, R105). -/
  sink : List SnkAnswer
  /-- The completed pushes to the output stream, first first (R25, R26). -/
  offers : List Push
  /-- Which agent moves next, and when reset is asserted: every interleaving is some list (R42, I11). -/
  schedule : List Turn
  deriving DecidableEq, Repr

/-- Why the machine stops with a fault: a read that R101 makes a fault of the model. Both are safe: the model stops
where the spec gives no value. -/
inductive Fault where
  /-- REQ reads a field that its response marks absent (R23, R87, R101). Raised by `readField`. Safe. -/
  | absentField (f : ResponseField)
  /-- REQ reads a result before the response has arrived (R101). Raised by `readField`. Safe. -/
  | readBeforeResponse (f : ResponseField)
  deriving DecidableEq, Repr

/-- Why a command has no meaning. -/
inductive Refusal where
  /-- The arm of this instruction has no meaning yet. Raised by `exec`'s refused arms only. Safe. -/
  | notModelled (mnemonic : String)
  /-- The command code is reserved (R57, R87). Raised by the meanings of the two reserved codes. Safe. -/
  | reservedCode (op : OpCode)
  deriving DecidableEq, Repr

/-- The outcome of a step or of a meaning. -/
abbrev Result := Host.Outcome State Fault Refusal

/-- The machine right after reset (R29, R96): both units idle, nothing held, no response. The registers R29 leaves
unspecified hold zero (DESIGN CHOICE, log entry 6), and the external agents have nothing to give (log entry 10). -/
def State.reset : State where
  decBusy := false
  decIdx := 0#3
  decAcc := 0#32
  decSigned := false
  encBusy := false
  encIdx := 0#3
  encRem := 0#32
  decHeld := []
  encHeld := []
  requests := []
  received := []
  taken := []
  source := []
  consumed := []
  sink := []
  offers := []
  schedule := []

end Sys2Proof.Machine
end

