-- ==== Sys2Proof/Machine/Flags.lean ====
section
/-!
DEFINITION. The status a response reports and the two bit tests a byte step makes. The block has no flag register: the
continuation bit is a bit of each transferred byte, and the response status is the only status reported (10_state.md
R28; 30_encoding.md R45, R48, R59).
-/

namespace Sys2Proof.Machine

/-- The response status codes (R59). -/
def Status.code : Status → BitVec 2
  | .ok => 0b00#2
  | .overflow => 0b01#2
  | .srcFault => 0b10#2
  | .sinkFault => 0b11#2

/-- The continuation flag of an encoded byte: bit 7 set means that another byte of the value follows (R45). -/
def continues (b : Byte) : Bool := b.getLsbD 7

/-- The fifth byte has a bit of `MASK5` set, so that the value cannot fit in 32 bits (R48, R78). -/
def fifthOverflows (b : Byte) : Bool := b &&& Config.mask5 != 0#8

/-- The value of a response's field, `none` where R23 marks the field absent. -/
def Response.read (r : Response) : ResponseField → Option FieldValue
  | .status => some (.status r.status.code)
  | .data => r.data.map .data
  | .err => r.err.map .err

end Sys2Proof.Machine
end

