-- ==== Sys2Proof/Machine/Operands.lean ====
section
/-!
DEFINITION. How 32-bit operands and results are read (30_encoding.md R60), the payload groups of an encoded byte (R45,
R47), and the two combinational transforms ZZE and ZZD (41_zigzag_signed.md R71, R72).
-/

namespace Sys2Proof.Machine

/-- A 32-bit pattern read as an unsigned number (R11, R60). -/
def u32 (w : Word) : Nat := w.toNat

/-- A 32-bit pattern read as a signed number, by two's complement (R11, R60; log entry 12). -/
def s32 (w : Word) : Int := w.toInt

/-- Bits 6:0 of an encoded byte (R45). -/
def payload (b : Byte) : Group := b.extractLsb' 0 7

/-- The payload of the byte with group index `k`, zero-extended and shifted to its offset, bits above 31 dropped
(R47). -/
def placed (k : Nat) (b : Byte) : Word := (payload b).setWidth 32 <<< (7 * k)

/-- The low 7 bits of the remaining value (R67). -/
def lowGroup (rem : Word) : Group := rem.extractLsb' 0 7

/-- The remaining value without its low group: a logical shift (R67). -/
def dropGroup (rem : Word) : Word := rem >>> 7

/-- The continuation bit of the byte pushed for `rem`: bits remain after the low group (R67). -/
def moreGroups (rem : Word) : Bool := dropGroup rem != 0#32

/-- The byte pushed for the remaining value, `c :: g` (R67). -/
def groupByte (rem : Word) : Byte := BitVec.ofBool (moreGroups rem) ++ lowGroup rem

/-- ZZE, the zig-zag encoder (R71). -/
def zze (v : Word) : Word := (v <<< 1) ^^^ v.sshiftRight 31

/-- ZZD, the zig-zag decoder (R72). -/
def zzd (u : Word) : Word := (u >>> 1) ^^^ (0#32 - (u &&& 1#32))

end Sys2Proof.Machine
end

