-- ==== Sys2Proof/Machine/Ops.lean ====
section
/-!
DEFINITION. The operations the commands share: delivering a response, taking a failure, accepting and holding a
request, the byte steps of DEC and ENC, reset, and the requester's own actions (10_state.md R22 to R25, R29;
40_varint.md R63, R67; 60_exceptions.md R78 to R84; 70_reset_and_hazards.md R94, R95, R101).
-/

namespace Sys2Proof.Machine

/-! ## Responses and failures -/

/-- Unit `u` delivers response `r` to the requester (R11 `respond`, R23). Nothing of it stays in the block. -/
def State.respond (u : UnitName) (r : Response) (s : State) : State :=
  { s with received := s.received ++ [⟨u, r⟩] }

/-- DEC becomes idle (R81, R83). Its working registers are left as they are: they are dead until the next acceptance
(R30). -/
def State.idleDec (s : State) : State := { s with decBusy := false }

/-- ENC becomes idle (R81, R83). -/
def State.idleEnc (s : State) : State := { s with encBusy := false }

/-- A unit becomes idle. ZZE and ZZD have no busy register (R20). -/
def State.idle (u : UnitName) (s : State) : State :=
  match u with
  | .dec => s.idleDec
  | .enc => s.idleEnc
  | .zze => s
  | .zzd => s

/-- An operation of unit `u` ends with OK: the unit is idle and delivers its one response (R23). -/
def finish (u : UnitName) (data : Option Word) (s : State) : State :=
  (s.idle u).respond u ⟨.ok, data, none⟩

/-- TAKING A FAILURE (R81): the unit's busy register becomes 0 and the operation's one response carries the failure
status and, for a fault of the source or sink, its value unchanged (R79). Nothing is saved and nothing is undone, so
there is no return from a failure (R83). -/
def takeFailure (u : UnitName) (st : Status) (err : Option FaultValue) (s : State) : State :=
  (s.idle u).respond u ⟨st, none, err⟩

/-! ## Acceptance and holding -/

/-- DEC's accepting step for VDEC_U (R63) and VDEC_S (R74). -/
def acceptDec (c : DecRequest) (s : State) : State :=
  { s with
    decBusy := true
    decIdx := 0#3
    decAcc := 0#32
    decSigned := match c with
      | .vdecU => false
      | .vdecS => true }

/-- The value ENC starts from: VENC_S applies ZZE at acceptance (R67, R75). -/
def EncRequest.start : EncRequest → Word
  | .vencU v => v
  | .vencS v => zze v

/-- ENC's accepting step for VENC_U (R67) and VENC_S (R75). -/
def acceptEnc (c : EncRequest) (s : State) : State :=
  { s with encBusy := true, encIdx := 0#3, encRem := c.start }

/-- A request offered to DEC: accepted while `dec_busy` is 0, otherwise held, neither accepted nor dropped (R22). -/
def offerDec (c : DecRequest) (s : State) : State :=
  if s.decBusy then { s with decHeld := s.decHeld ++ [c] } else acceptDec c s

/-- A request offered to ENC (R22). -/
def offerEnc (c : EncRequest) (s : State) : State :=
  if s.encBusy then { s with encHeld := s.encHeld ++ [c] } else acceptEnc c s

/-- DEC accepts the request held at place `k`; a busy DEC accepts none (R22). Which held request goes first is left to
the schedule (log entry 5). -/
def acceptHeldDec (k : Nat) (s : State) : State :=
  if s.decBusy then s
  else match s.decHeld[k]? with
    | some c => acceptDec c { s with decHeld := s.decHeld.eraseIdx k }
    | none => s

/-- ENC accepts the request held at place `k`; a busy ENC accepts none (R22). -/
def acceptHeldEnc (k : Nat) (s : State) : State :=
  if s.encBusy then s
  else match s.encHeld[k]? with
    | some c => acceptEnc c { s with encHeld := s.encHeld.eraseIdx k }
    | none => s

/-! ## The byte steps -/

/-- The result DEC responds with: the accumulated value, through ZZD for VDEC_S (R63, R74). -/
def decResult (signed : Bool) (acc : Word) : Word := if signed then zzd acc else acc

/-- DEC's treatment of a byte it has pulled: the overflow check, then accumulation and continuation (R63, R84). -/
def decByte (b : Byte) (s : State) : State :=
  if s.decIdx = 4#3 ∧ fifthOverflows b = true then takeFailure .dec .overflow none s
  else if continues b then
    { s with decAcc := s.decAcc ||| placed s.decIdx.toNat b, decIdx := s.decIdx + 1#3 }
  else finish .dec (some (decResult s.decSigned (s.decAcc ||| placed s.decIdx.toNat b))) s

/-- `DEC.step` (R63): enabled while `dec_busy` is 1, one `SrcPull()`. Without an answer of the source DEC waits
(R105). -/
def decStep (s : State) : State :=
  if s.decBusy then
    match s.source with
    | [] => s
    | .fault e :: rest => takeFailure .dec .srcFault (some e) { s with source := rest }
    | .byte b :: rest => decByte b { s with source := rest, consumed := s.consumed ++ [b] }
  else s

/-- ENC after an acknowledged push: done when the byte's continuation bit was 0, else on to the next group (R67). -/
def encAcked (s : State) : State :=
  if moreGroups s.encRem then
    { s with encRem := dropGroup s.encRem, encIdx := s.encIdx + 1#3 }
  else finish .enc none s

/-- `ENC.step` (R67): enabled while `enc_busy` is 1, one `SnkPush(b)`. Without an answer of the sink ENC waits
(R105). -/
def encStep (s : State) : State :=
  if s.encBusy then
    match s.sink with
    | [] => s
    | .fault e :: rest =>
      takeFailure .enc .sinkFault (some e)
        { s with sink := rest, offers := s.offers ++ [⟨groupByte s.encRem, .fault e⟩] }
    | .ack :: rest =>
      encAcked { s with sink := rest, offers := s.offers ++ [⟨groupByte s.encRem, .ack⟩] }
  else s

/-! ## Reset and the requester -/

/-- RESET (R94): operations in flight end with no response, held requests are dropped, and the working registers go to
the values of `State.reset` (R29; log entry 6). The streams and the requester are not touched. -/
def resetBlock (s : State) : State :=
  { s with
    decBusy := State.reset.decBusy
    decIdx := State.reset.decIdx
    decAcc := State.reset.decAcc
    decSigned := State.reset.decSigned
    encBusy := State.reset.encBusy
    encIdx := State.reset.encIdx
    encRem := State.reset.encRem
    decHeld := State.reset.decHeld
    encHeld := State.reset.encHeld }

/-- The requester's next command, decoded, and the state once it has offered it (R21); `none` when it has none. -/
def nextRequest (s : State) : Option (Instr × State) :=
  match s.requests with
  | [] => none
  | w :: ws => some (decode w, { s with requests := ws })

/-- REQ reads field `f` of the response it received at place `k`: a field that is absent, or a response that has not
arrived, is a fault and not a value (R23, R101). -/
def readField (k : Nat) (f : ResponseField) (s : State) : Result :=
  match s.received[k]? with
  | none => .fault (.readBeforeResponse f)
  | some d =>
    match d.response.read f with
    | none => .fault (.absentField f)
    | some v => .next { s with taken := s.taken ++ [v] }

/-- The next turn, and the state once it has begun; `none` when no agent moves. -/
def nextTurn (s : State) : Option (Turn × State) :=
  match s.schedule with
  | [] => none
  | t :: ts => some (t, { s with schedule := ts })

/-- The word stored as the requester's next command by `State.withFetchWord`: bits above `nbits` are zero, and the
block has no bit above bit 34 (R55). -/
def fetchWord (nbits w : Nat) : CommandWord := BitVec.ofNat 35 (w % 2 ^ nbits)

end Sys2Proof.Machine
end

