-- ==== Sys2Proof/Machine/Reserved.lean ====
section
/-!
DEFINITION. The reserved command codes (30_encoding.md R57): no unit accepts them, and the model records a refusal.
-/

namespace Sys2Proof.Machine

/-- Command code 110 (R57). -/
def execReserved110 (_s : State) : Result := .refused (.reservedCode 0b110#3)

/-- Command code 111 (R57). -/
def execReserved111 (_s : State) : Result := .refused (.reservedCode 0b111#3)

end Sys2Proof.Machine
end

