-- ==== Sys2Proof/Machine/Signed.lean ====
section
/-!
DEFINITION. The signed commands (41_zigzag_signed.md R74, R75): the compositions of a zig-zag transform with an unsigned
varint command. Each is one command (30_encoding.md R62).
-/

namespace Sys2Proof.Machine

/-- VDEC_S, offered to DEC; the result passes through ZZD at the end (R74). -/
def execVdecS (s : State) : Result := .next (offerDec .vdecS s)

/-- VENC_S, offered to ENC with the s32 value `v`; ZZE is applied at acceptance (R75). -/
def execVencS (v : Word) (s : State) : Result := .next (offerEnc (.vencS v) s)

end Sys2Proof.Machine
end

