-- ==== Sys2Proof/Machine/Varint.lean ====
section
/-!
DEFINITION. The unsigned varint commands (40_varint.md R63, R67). A command is accepted or held here; its byte steps are
`decStep` and `encStep`.
-/

namespace Sys2Proof.Machine

/-- VDEC_U, offered to DEC (R63, R22). -/
def execVdecU (s : State) : Result := .next (offerDec .vdecU s)

/-- VENC_U, offered to ENC with the u32 value `v` (R67, R22). -/
def execVencU (v : Word) (s : State) : Result := .next (offerEnc (.vencU v) s)

end Sys2Proof.Machine
end

