-- ==== Sys2Proof/Machine/Zigzag.lean ====
section
/-!
DEFINITION. The zig-zag commands (41_zigzag_signed.md R71, R72): combinational, always accepted, answered at acceptance
(10_state.md R20, R22).
-/

namespace Sys2Proof.Machine

/-- ZZ_ENC: ZZE responds (OK, ZZE(v)) (R71). -/
def execZzEnc (v : Word) (s : State) : Result := .next (finish .zze (some (zze v)) s)

/-- ZZ_DEC: ZZD responds (OK, ZZD(u)) (R72). -/
def execZzDec (u : Word) (s : State) : Result := .next (finish .zzd (some (zzd u)) s)

end Sys2Proof.Machine
end

