-- ==== Sys2Proof/Machine/Dispatch.lean ====
section
/-!
DEFINITION. What each command does when the requester offers it, one arm per row of the opcode table.
-/

namespace Sys2Proof.Machine

def exec (i : Instr) (s : State) : Host.Outcome State Fault Refusal :=
  match i with
  | .vdecU => Sys2Proof.Machine.execVdecU s
  | .vencU v => Sys2Proof.Machine.execVencU v s
  | .zzEnc v => Sys2Proof.Machine.execZzEnc v s
  | .zzDec u => Sys2Proof.Machine.execZzDec u s
  | .vdecS => Sys2Proof.Machine.execVdecS s
  | .vencS v => Sys2Proof.Machine.execVencS v s
  | .reserved110 => Sys2Proof.Machine.execReserved110 s
  | .reserved111 => Sys2Proof.Machine.execReserved111 s

end Sys2Proof.Machine
end

