-- ==== Sys2Proof/Machine/Step.lean ====
section
/-!
DEFINITION. One step of the machine: the next turn of the schedule (10_state.md R17). A reset asserted in the turn takes
priority over its move (70_reset_and_hazards.md R95). Where no agent moves, or the agent whose turn it is cannot, nothing
else changes: a unit whose collaborator does not answer waits for ever (R105).
-/

namespace Sys2Proof.Machine

/-- The move of one agent, made in a state whose turn has begun. -/
def runMove (m : Move) (s : State) : Host.Outcome State Fault Refusal :=
  match m with
  | .request =>
    match nextRequest s with
    | none => .next s
    | some (i, s') => exec i s'
  | .acceptDec k => .next (acceptHeldDec k s)
  | .acceptEnc k => .next (acceptHeldEnc k s)
  | .srcAnswer => .next (decStep s)
  | .snkAnswer => .next (encStep s)
  | .read k f => readField k f s

/-- One step. -/
def step (s : State) : Host.Outcome State Fault Refusal :=
  match nextTurn s with
  | none => .next s
  | some (t, s') => if t.reset then .next (resetBlock s') else runMove t.move s'

/-- The state in which the requester's very next turn offers the given command word and nothing else is changed: the
command stands before REQ's other commands and its turn before the other turns (log entry 10). -/
def State.withFetchWord (s : State) (nbits w : Nat) : State :=
  { s with
    requests := fetchWord nbits w :: s.requests
    schedule := ⟨false, .request⟩ :: s.schedule }

end Sys2Proof.Machine
end

