-- ==== Sys2Proof/Machine/Wire.lean ====
section
/-!
DEFINITION. The wire format and the whole-operation functions (30_encoding.md R46 to R53; 40_varint.md R64, R68, R69):
what one whole decode or encode computes from the answers of the byte source or sink, stated without the units' registers.
-/

namespace Sys2Proof.Machine

/-! ## Encoded values -/

/-- The groups of a byte list, the first at group index `k`, ORed together modulo 2^32 (R47). -/
def valueFrom (k : Nat) : List Byte → Word
  | [] => 0#32
  | b :: bs => placed k b ||| valueFrom (k + 1) bs

/-- The value an encoded value stands for (R47). -/
def wireValue (bs : List Byte) : Word := valueFrom 0 bs

/-- A well-formed encoded value, one the decoder accepts (R49): 1 to 5 bytes, bit 7 set in every byte but the last and
clear in the last, and a fifth byte with no bit of `MASK5`. -/
def wellFormedEncoding (bs : List Byte) : Bool :=
  1 ≤ bs.length && bs.length ≤ Config.maxBytes
    && bs.dropLast.all continues
    && (bs.getLast?.any fun b => !continues b)
    && (bs[4]?.all fun b => !fifthOverflows b)

/-- The one malformed pattern the block detects, the first five bytes (R50): bit 7 set in four, and a bit of `MASK5` set
in the fifth. -/
def malformedEncoding (bs : List Byte) : Bool :=
  bs.length == Config.maxBytes && (bs.take 4).all continues && (bs[4]?.any fifthOverflows)

/-- The number of bits of a value, 0 for 0 (R52). -/
def bitLength (v : Word) : Nat := if v = 0#32 then 0 else v.toNat.log2 + 1

/-- The length of the canonical encoding, `max(1, ceil(bit_length(v)/7))` (R52). -/
def canonicalLength (v : Word) : Nat := max 1 ((bitLength v + 6) / 7)

/-! ## Whole decodes -/

/-- How a decode ends (R64). -/
inductive DecodeOutcome where
  | ok (v : Word)
  | overflow
  | srcFault (e : FaultValue)
  deriving DecidableEq, Repr

/-- The outcome of a decode and the number of bytes it removed from the input stream (R64). -/
structure DecodeResult where
  outcome : DecodeOutcome
  consumed : Nat
  deriving DecidableEq, Repr

/-- The loop of `decodeU` from group index `k` with accumulator `acc` (R64). `none`: the source has not answered, so the
operation is not over (R105). -/
def decodeLoop (k : Nat) (acc : Word) : List SrcAnswer → Option DecodeResult
  | [] => none
  | .fault e :: _ => some ⟨.srcFault e, k⟩
  | .byte b :: rest =>
    if k = 4 ∧ fifthOverflows b = true then some ⟨.overflow, 5⟩
    else if continues b then decodeLoop (k + 1) (acc ||| placed k b) rest
    else some ⟨.ok (acc ||| placed k b), k + 1⟩

/-- `decodeU` of the answers of the source (R64). -/
def decodeU (answers : List SrcAnswer) : Option DecodeResult := decodeLoop 0 0#32 answers

/-- The pulls a decode made: the bytes it consumed, and the faulting pull, which returned no byte (R65). -/
def DecodeResult.pulls (r : DecodeResult) : Nat :=
  match r.outcome with
  | .ok _ => r.consumed
  | .overflow => r.consumed
  | .srcFault _ => r.consumed + 1

/-- The response of a decode: the value passes through ZZD for VDEC_S; failures are the same for both (R63, R74, R78,
R79). -/
def DecodeOutcome.response (signed : Bool) : DecodeOutcome → Response
  | .ok v => ⟨.ok, some (decResult signed v), none⟩
  | .overflow => ⟨.overflow, none, none⟩
  | .srcFault e => ⟨.srcFault, none, some e⟩

/-- The bytes among a list of source answers, in order. -/
def answeredBytes : List SrcAnswer → List Byte
  | [] => []
  | .byte b :: rest => b :: answeredBytes rest
  | .fault _ :: rest => answeredBytes rest

/-! ## Whole encodes -/

/-- The loop of `encodeU`, at most `n` groups (R68). -/
def encodeLoop : Nat → Word → List Byte
  | 0, _ => []
  | n + 1, rem =>
    if dropGroup rem ≠ 0#32 then (0x80#8 ||| (lowGroup rem).setWidth 8) :: encodeLoop n (dropGroup rem)
    else [(lowGroup rem).setWidth 8]

/-- `encodeU`: the canonical encoding of a value (R68). Five groups are enough for 32 bits (R69; log entry 18). -/
def encodeU (v : Word) : List Byte := encodeLoop Config.maxBytes v

/-- How an encode ends (R67). -/
inductive EncodeOutcome where
  | ok
  | sinkFault (e : FaultValue)
  deriving DecidableEq, Repr

/-- The outcome of an encode and the pushes it made (R69). -/
structure EncodeResult where
  outcome : EncodeOutcome
  pushes : List Push
  deriving DecidableEq, Repr

/-- Offering the bytes of an encoded value one by one, up to the last or to the first that the sink answers with a fault
(R69). `none`: the sink has not answered, so the operation is not over (R105). -/
def pushAll : List Byte → List SnkAnswer → Option EncodeResult
  | [], _ => some ⟨.ok, []⟩
  | _ :: _, [] => none
  | b :: _, .fault e :: _ => some ⟨.sinkFault e, [⟨b, .fault e⟩]⟩
  | b :: bs, .ack :: rest =>
    match pushAll bs rest with
    | none => none
    | some r => some ⟨r.outcome, ⟨b, .ack⟩ :: r.pushes⟩

/-- The response of an encode (R67, R79): no result data. -/
def EncodeOutcome.response : EncodeOutcome → Response
  | .ok => ⟨.ok, none, none⟩
  | .sinkFault e => ⟨.sinkFault, none, some e⟩

/-- The bytes the sink has acknowledged, and so appended, in order (R25). -/
def acknowledged : List Push → List Byte
  | [] => []
  | ⟨b, .ack⟩ :: rest => b :: acknowledged rest
  | ⟨_, .fault _⟩ :: rest => acknowledged rest

end Sys2Proof.Machine
end

