-- ==== Sys2Proof/Machine/Script.lean ====
section
/-!
DEFINITION. The syntax of command scripts (30_encoding.md R62) and the hexadecimal form of a command word (R55): text is
a list of characters. Notation only (D20); the block never sees it.
-/

namespace Sys2Proof.Machine

/-- Why a script is not a command script (log entry 19). -/
inductive ScriptError where
  /-- The line's first word is none of the six mnemonics; no pseudo-command exists. -/
  | unknownMnemonic
  /-- A command that takes an operand stands without one. -/
  | missingOperand
  /-- Text follows a complete command. -/
  | extraText
  /-- The operand is neither decimal nor `0x` hexadecimal. -/
  | badNumber
  /-- The operand lies outside the range of its u32 or s32 operand (R60). -/
  | outOfRange
  deriving DecidableEq, Repr

/-! ## Numbers -/

/-- The digits of both of R62's number forms, each at the place of its value. -/
def digitAlphabet : List Char := "0123456789ABCDEF".toList

/-- The value of a digit of base `base`, at most 16; the digits above nine are read in either case. -/
def digitValue (base : Nat) (c : Char) : Option Nat :=
  (digitAlphabet.take base).findIdx? fun a => a == c || a.toLower == c

/-- Read digits after a number whose digits so far are worth `acc`. -/
def readDigits (base acc : Nat) : List Char → Option Nat
  | [] => some acc
  | c :: cs =>
    match digitValue base c with
    | none => none
    | some d => readDigits base (acc * base + d) cs

/-- A decimal or `0x` hexadecimal number. -/
def readNat : List Char → Option Nat
  | [] => none
  | '0' :: 'x' :: c :: cs => readDigits 16 0 (c :: cs)
  | c :: cs => readDigits 10 0 (c :: cs)

/-- A number that may carry a minus sign. -/
def readInt : List Char → Option Int
  | '-' :: cs => (readNat cs).map fun n => -(n : Int)
  | cs => (readNat cs).map fun n => (n : Int)

/-- The operand of VENC_U and ZZ_DEC: an unsigned value. -/
def unsignedOperand (cs : List Char) : Except ScriptError Word :=
  match readNat cs with
  | none => .error .badNumber
  | some n => if n < 2 ^ 32 then .ok (BitVec.ofNat 32 n) else .error .outOfRange

/-- The operand of VENC_S and ZZ_ENC: a signed value. -/
def signedOperand (cs : List Char) : Except ScriptError Word :=
  match readInt cs with
  | none => .error .badNumber
  | some z => if -2 ^ 31 ≤ z ∧ z < 2 ^ 31 then .ok (BitVec.ofInt 32 z) else .error .outOfRange

/-! ## Lines -/

def nameVdecU : List Char := ['V', 'D', 'E', 'C', '_', 'U']
def nameVencU : List Char := ['V', 'E', 'N', 'C', '_', 'U']
def nameZzEnc : List Char := ['Z', 'Z', '_', 'E', 'N', 'C']
def nameZzDec : List Char := ['Z', 'Z', '_', 'D', 'E', 'C']
def nameVdecS : List Char := ['V', 'D', 'E', 'C', '_', 'S']
def nameVencS : List Char := ['V', 'E', 'N', 'C', '_', 'S']

/-- Cut text at the separators, leaving out empty pieces; `cur` is the piece so far, last character first. -/
def splitPieces (separator : Char → Bool) (cur : List Char) : List Char → List (List Char)
  | [] => if cur = [] then [] else [cur.reverse]
  | c :: cs =>
    if separator c then
      if cur = [] then splitPieces separator [] cs else cur.reverse :: splitPieces separator [] cs
    else splitPieces separator (c :: cur) cs

/-- A command without operand. -/
def plainCommand (i : Instr) : List (List Char) → Except ScriptError Instr
  | [] => .ok i
  | _ :: _ => .error .extraText

/-- A command with one operand. -/
def operandCommand (read : List Char → Except ScriptError Word) (make : Word → Instr) :
    List (List Char) → Except ScriptError Instr
  | [] => .error .missingOperand
  | [a] =>
    match read a with
    | .ok v => .ok (make v)
    | .error e => .error e
  | _ :: _ :: _ => .error .extraText

/-- The command of a mnemonic and the words after it. -/
def scriptCommand (m : List Char) (args : List (List Char)) : Except ScriptError Instr :=
  if m = nameVdecU then plainCommand .vdecU args
  else if m = nameVencU then operandCommand unsignedOperand .vencU args
  else if m = nameZzEnc then operandCommand signedOperand .zzEnc args
  else if m = nameZzDec then operandCommand unsignedOperand .zzDec args
  else if m = nameVdecS then plainCommand .vdecS args
  else if m = nameVencS then operandCommand signedOperand .vencS args
  else .error .unknownMnemonic

/-- The command words of a script's lines: one command a line, `;` starts a comment, an empty line says nothing. -/
def assembleLines : List (List Char) → Except ScriptError (List CommandWord)
  | [] => .ok []
  | line :: lines =>
    match splitPieces (fun c => c == ' ' || c == '\t') [] (line.takeWhile (· != ';')) with
    | [] => assembleLines lines
    | m :: args =>
      match scriptCommand m args with
      | .error e => .error e
      | .ok i =>
        match assembleLines lines with
        | .error e => .error e
        | .ok ws => .ok (encode i :: ws)

/-- The command words of a script (R62). -/
def assemble (text : List Char) : Except ScriptError (List CommandWord) :=
  assembleLines (splitPieces (· == '\n') [] text)

/-! ## Writing -/

/-- The hexadecimal digit of a number below 16, in capitals. -/
def hexChar (d : Nat) : Char := digitAlphabet.getD d '0'

/-- The low `n` hexadecimal digits of a number, most significant first. -/
def hexDigits : Nat → Nat → List Char
  | 0, _ => []
  | n + 1, v => hexDigits n (v / 16) ++ [hexChar (v % 16)]

/-- The form `op:dddddddd` of a command word (R55). -/
def showWord (w : CommandWord) : List Char :=
  hexChar (opField w).toNat :: ':' :: hexDigits 8 (dataField w).toNat

/-- An unsigned operand, in hexadecimal. -/
def showUnsigned (v : Word) : List Char := '0' :: 'x' :: hexDigits 8 (u32 v)

/-- A signed operand, in hexadecimal with a minus sign where it is negative. -/
def showSigned (v : Word) : List Char :=
  if s32 v < 0 then '-' :: '0' :: 'x' :: hexDigits 8 (s32 v).natAbs else '0' :: 'x' :: hexDigits 8 (s32 v).natAbs

/-- A script line for a command; the reserved codes have no syntax (R57, R62). -/
def scriptLine : Instr → Option (List Char)
  | .vdecU => some nameVdecU
  | .vencU v => some (nameVencU ++ ' ' :: showUnsigned v)
  | .zzEnc v => some (nameZzEnc ++ ' ' :: showSigned v)
  | .zzDec u => some (nameZzDec ++ ' ' :: showUnsigned u)
  | .vdecS => some nameVdecS
  | .vencS v => some (nameVencS ++ ' ' :: showSigned v)
  | .reserved110 => none
  | .reserved111 => none

end Sys2Proof.Machine
end

