-- ==== Sys2Proof/Safety.lean ====
section
/-!
DEFINITION. What holds in every state a run reaches, what a requester can observe, and the relations claims compare states
by (10_state.md R18, R19, R23, R26, R30; 00_scope.md R10).
-/

namespace Sys2Proof.Machine

/-! ## Invariants -/

/-- The group indices hold 0 to 4, and while an operation is in flight the accumulator holds only groups below `dec_idx`
(R18) and the remaining value only the bits above group `enc_idx` (R19). -/
def State.Inv (s : State) : Prop :=
  s.decIdx.toNat ≤ 4 ∧ s.encIdx.toNat ≤ 4
    ∧ (s.decBusy = true → s.decAcc.toNat < 2 ^ (7 * s.decIdx.toNat))
    ∧ (s.encBusy = true → s.encRem.toNat < 2 ^ (32 - 7 * s.encIdx.toNat))

/-- Which fields a unit's response has (R23): `data` exactly when the status is OK and the unit is not ENC, whose commands
have no result; `err` exactly when the status is SRC_FAULT or SINK_FAULT. And which statuses the unit can report (R59,
R78 to R80). -/
def Delivery.shaped (d : Delivery) : Bool :=
  match d.source, d.response with
  | .dec, ⟨.ok, some _, none⟩ => true
  | .dec, ⟨.overflow, none, none⟩ => true
  | .dec, ⟨.srcFault, none, some _⟩ => true
  | .enc, ⟨.ok, none, none⟩ => true
  | .enc, ⟨.sinkFault, none, some _⟩ => true
  | .zze, ⟨.ok, some _, none⟩ => true
  | .zzd, ⟨.ok, some _, none⟩ => true
  | _, _ => false

/-- Every response the requester has received has the fields R23 gives it. -/
def State.responsesShaped (s : State) : Prop := ∀ d ∈ s.received, d.shaped = true

/-! ## Observation -/

/-- The responses the requester has received from unit `u`, in order. -/
def State.responsesOf (s : State) (u : UnitName) : List Response :=
  (s.received.filter fun d => d.source = u).map (·.response)

/-- The state with the dead working registers of idle units blanked: what can still be observed of it (R26, R30). -/
def State.live (s : State) : State :=
  { s with
    decIdx := if s.decBusy then s.decIdx else 0#3
    decAcc := if s.decBusy then s.decAcc else 0#32
    decSigned := if s.decBusy then s.decSigned else false
    encIdx := if s.encBusy then s.encIdx else 0#3
    encRem := if s.encBusy then s.encRem else 0#32 }

/-! ## Renaming fault values -/

/-- A source answer with its fault value renamed. -/
def SrcAnswer.rename (f : FaultValue → FaultValue) : SrcAnswer → SrcAnswer
  | .byte b => .byte b
  | .fault e => .fault (f e)

/-- A sink answer with its fault value renamed. -/
def SnkAnswer.rename (f : FaultValue → FaultValue) : SnkAnswer → SnkAnswer
  | .ack => .ack
  | .fault e => .fault (f e)

/-- A completed push with its fault value renamed. -/
def Push.rename (f : FaultValue → FaultValue) (p : Push) : Push := ⟨p.byte, p.answer.rename f⟩

/-- A response with its fault value renamed. -/
def Response.rename (f : FaultValue → FaultValue) (r : Response) : Response := ⟨r.status, r.data, r.err.map f⟩

/-- A delivery with its fault value renamed. -/
def Delivery.rename (f : FaultValue → FaultValue) (d : Delivery) : Delivery := ⟨d.source, d.response.rename f⟩

/-- A field value with its fault value renamed. -/
def FieldValue.rename (f : FaultValue → FaultValue) : FieldValue → FieldValue
  | .status c => .status c
  | .data v => .data v
  | .err e => .err (f e)

/-- The state with every fault value in it renamed (R10: `E` is a parameter of the model). -/
def State.rename (f : FaultValue → FaultValue) (s : State) : State :=
  { s with
    received := s.received.map (Delivery.rename f)
    taken := s.taken.map (FieldValue.rename f)
    source := s.source.map (SrcAnswer.rename f)
    sink := s.sink.map (SnkAnswer.rename f)
    offers := s.offers.map (Push.rename f) }

/-- An outcome with its next state changed by `f`; faults and refusals stand. -/
def mapNext (f : State → State) : Result → Result
  | .next s => .next (f s)
  | .fault r => .fault r
  | .refused r => .refused r

/-! ## Turns and runs -/

/-- A turn of the source, without reset. -/
def srcTurn : Turn := ⟨false, .srcAnswer⟩

/-- A turn of the sink, without reset. -/
def snkTurn : Turn := ⟨false, .snkAnswer⟩

/-- A turn of the requester offering its next command, without reset. -/
def requestTurn : Turn := ⟨false, .request⟩

/-- `n` steps, stopping at the first fault or refusal. -/
def runSteps : Nat → State → Result
  | 0, s => .next s
  | n + 1, s =>
    match step s with
    | .next t => runSteps n t
    | .fault r => .fault r
    | .refused r => .refused r

end Sys2Proof.Machine
end

