-- ==== Sys2Proof/Certificates/Slice0/Obligations.lean ====
section
/-!
DEFINITION. The statements for the provers. A turn of the schedule is the model's way of saying which agent moves next
(notes/assumptions/3.md); everything a turn does is the rule a statement cites. An equation `… = .next { s with … }` says
the frame too: every field it does not name is unchanged.
-/

open Sys2Proof Sys2Proof.Machine

/-! ## Command words and scripts -/

/-- Words written out from R55 and R56: `op` in bits 34:32, `data` in bits 31:0. -/
def Obligations.WrittenOutCommandWordsDecode : Prop :=
  decode 0x000000000#35 = .vdecU ∧ decode 0x0DEADBEEF#35 = .vdecU ∧ decode 0x10000012C#35 = .vencU 300#32
    ∧ decode 0x280000000#35 = .zzEnc 0x80000000#32 ∧ decode 0x3FFFFFFFE#35 = .zzDec 0xFFFFFFFE#32
    ∧ decode 0x400000000#35 = .vdecS ∧ decode 0x5FFFFFC18#35 = .vencS (-1000#32)
    ∧ decode 0x600000000#35 = .reserved110 ∧ decode 0x7FFFFFFFF#35 = .reserved111

/-- Decoding an encoded command gives it back, with every operand at every value; encoding a decoded word gives back its
`op`, and its `data` too where the command has an operand (R55 to R58). Elsewhere the encoder writes `data` 00000000: for
the two decodes by R62, for the two reserved codes by the model's choice (log entry 13). -/
def Obligations.DecodeAndEncodeAgree : Prop :=
  (∀ i : Instr, decode (encode i) = i) ∧
  ∀ w : CommandWord, encode (decode w) =
    opField w ++ (if opField w = 0b001#3 ∨ opField w = 0b010#3 ∨ opField w = 0b011#3 ∨ opField w = 0b101#3
      then dataField w else 0#32)

/-- Every command word has the fixed bits of exactly one row of spec/opcode_table.json, and decodes to a command of that
row's mnemonic. -/
def Obligations.EveryWordMatchesOneTableRow : Prop :=
  ∀ w : CommandWord, ∃ r, opcodeRows.filter (fun r => r.covers w) = [r] ∧ r.mnemonic = (decode w).mnemonic

/-- R58: the `data` field of VDEC_U and VDEC_S has no influence on the turn that offers the command. -/
def Obligations.DecodeCommandsIgnoreTheirData : Prop :=
  ∀ (s : State) (ws : List CommandWord) (ts : List Turn) (d d' : Word), s.schedule = requestTurn :: ts →
    step { s with requests := (0b000#3 ++ d : CommandWord) :: ws }
        = step { s with requests := (0b000#3 ++ d' : CommandWord) :: ws } ∧
    step { s with requests := (0b100#3 ++ d : CommandWord) :: ws }
        = step { s with requests := (0b100#3 ++ d' : CommandWord) :: ws }

/-- When it is the requester's turn, a step is `exec` of the command its next word decodes to, in the state in which the
turn and the word are taken (log entries 3, 10); a requester with no command does nothing. -/
def Obligations.StepRunsTheDecodedCommand : Prop :=
  ∀ (s : State) (ts : List Turn), s.schedule = requestTurn :: ts →
    (∀ w ws, s.requests = w :: ws → step s = exec (decode w) { s with schedule := ts, requests := ws }) ∧
    (s.requests = [] → step s = .next { s with schedule := ts })

/-- The word that `withFetchWord` stores is the one the very next step runs, in the state it was stored into (log
entry 10). -/
def Obligations.FetchedWordIsRunNext : Prop :=
  ∀ (s : State) (nbits w : Nat) (i : Instr), decodeTableWord nbits w = some i →
    step (s.withFetchWord nbits w) = exec i s

/-- R62 with the choices of log entry 19: the script line written for a command assembles to that command's one word. -/
def Obligations.ScriptLinesAssembleToTheirWords : Prop :=
  ∀ (i : Instr) (line : List Char), scriptLine i = some line → assemble line = .ok [encode i]

/-! ## The commands -/

/-- R63, whole: VDEC_U's encoding, its acceptance while `dec_busy` is 0, and each of the four ways DEC's byte step ends
while `dec_busy` is 1. That `dec_acc` starts at 0 is marked in R63 as the spec's own derivation;
that a fifth byte 0x80 to 0x8F overflows is C1 and D6 (log entry 11). -/
def Obligations.VdecUReadsByteByByte : Prop :=
  (∀ d : Word, decode (0b000#3 ++ d) = .vdecU) ∧
  (∀ s : State, s.decBusy = false →
    exec .vdecU s = .next { s with decBusy := true, decIdx := 0#3, decAcc := 0#32, decSigned := false }) ∧
  ∀ (s : State) (ts : List Turn), s.decBusy = true → s.schedule = srcTurn :: ts →
    (∀ e rest, s.source = .fault e :: rest →
      step s = .next { s with
        schedule := ts, source := rest, decBusy := false
        received := s.received ++ [⟨.dec, ⟨.srcFault, none, some e⟩⟩] }) ∧
    (∀ b rest, s.source = .byte b :: rest → s.decIdx = 4#3 → b &&& 0xF0#8 ≠ 0#8 →
      step s = .next { s with
        schedule := ts, source := rest, consumed := s.consumed ++ [b], decBusy := false
        received := s.received ++ [⟨.dec, ⟨.overflow, none, none⟩⟩] }) ∧
    (∀ b rest, s.source = .byte b :: rest → ¬(s.decIdx = 4#3 ∧ b &&& 0xF0#8 ≠ 0#8) → b.getLsbD 7 = true →
      step s = .next { s with
        schedule := ts, source := rest, consumed := s.consumed ++ [b]
        decAcc := s.decAcc ||| ((b.extractLsb' 0 7).setWidth 32 <<< (7 * s.decIdx.toNat))
        decIdx := s.decIdx + 1#3 }) ∧
    (∀ b rest, s.source = .byte b :: rest → ¬(s.decIdx = 4#3 ∧ b &&& 0xF0#8 ≠ 0#8) → b.getLsbD 7 = false →
      s.decSigned = false →
      step s = .next { s with
        schedule := ts, source := rest, consumed := s.consumed ++ [b], decBusy := false
        received := s.received ++
          [⟨.dec, ⟨.ok, some (s.decAcc ||| ((b.extractLsb' 0 7).setWidth 32 <<< (7 * s.decIdx.toNat))), none⟩⟩] }) ∧
    (∀ b rest, s.source = .byte b :: rest → ¬(s.decIdx = 4#3 ∧ b &&& 0xF0#8 ≠ 0#8) → b.getLsbD 7 = false →
      s.decSigned = true →
      step s = .next { s with
        schedule := ts, source := rest, consumed := s.consumed ++ [b], decBusy := false
        received := s.received ++
          [⟨.dec, ⟨.ok, some (zzd (s.decAcc ||| ((b.extractLsb' 0 7).setWidth 32 <<< (7 * s.decIdx.toNat)))),
            none⟩⟩] })

/-- R67, whole: VENC_U's encoding, its acceptance while `enc_busy` is 0, and each of the three ways ENC's byte step ends
while `enc_busy` is 1. -/
def Obligations.VencUWritesByteByByte : Prop :=
  (∀ v : Word, decode (0b001#3 ++ v) = .vencU v) ∧
  (∀ (s : State) (v : Word), s.encBusy = false →
    exec (.vencU v) s = .next { s with encBusy := true, encIdx := 0#3, encRem := v }) ∧
  ∀ (s : State) (ts : List Turn), s.encBusy = true → s.schedule = snkTurn :: ts →
    (∀ e rest, s.sink = .fault e :: rest →
      step s = .next { s with
        schedule := ts, sink := rest, encBusy := false
        offers := s.offers ++
          [⟨BitVec.ofBool (s.encRem >>> 7 != 0#32) ++ s.encRem.extractLsb' 0 7, .fault e⟩]
        received := s.received ++ [⟨.enc, ⟨.sinkFault, none, some e⟩⟩] }) ∧
    (∀ rest, s.sink = .ack :: rest → s.encRem >>> 7 = 0#32 →
      step s = .next { s with
        schedule := ts, sink := rest, encBusy := false
        offers := s.offers ++ [⟨0#1 ++ s.encRem.extractLsb' 0 7, .ack⟩]
        received := s.received ++ [⟨.enc, ⟨.ok, none, none⟩⟩] }) ∧
    (∀ rest, s.sink = .ack :: rest → s.encRem >>> 7 ≠ 0#32 →
      step s = .next { s with
        schedule := ts, sink := rest
        offers := s.offers ++ [⟨1#1 ++ s.encRem.extractLsb' 0 7, .ack⟩]
        encRem := s.encRem >>> 7, encIdx := s.encIdx + 1#3 })

/-- R71: ZZ_ENC's encoding, and its one response in every state, with nothing else changed. -/
def Obligations.ZzEncRespondsAtAcceptance : Prop :=
  (∀ v : Word, decode (0b010#3 ++ v) = .zzEnc v) ∧
  ∀ (s : State) (v : Word), exec (.zzEnc v) s =
    .next { s with received := s.received ++ [⟨.zze, ⟨.ok, some ((v <<< 1) ^^^ (v.sshiftRight 31)), none⟩⟩] }

/-- R72: ZZ_DEC's encoding, and its one response in every state, with nothing else changed. -/
def Obligations.ZzDecRespondsAtAcceptance : Prop :=
  (∀ u : Word, decode (0b011#3 ++ u) = .zzDec u) ∧
  ∀ (s : State) (u : Word), exec (.zzDec u) s =
    .next { s with received := s.received ++ [⟨.zzd, ⟨.ok, some ((u >>> 1) ^^^ (0#32 - (u &&& 1#32))), none⟩⟩] }

/-- R74: VDEC_S's encoding, its acceptance while `dec_busy` is 0, and how the byte step of R63 ends for it: the OK data is
ZZD of the accumulated value, and the failures are those of VDEC_U. That a fifth byte 0x80 to 0x8F overflows is C1 and D6
(log entry 11). -/
def Obligations.VdecSReadsByteByByte : Prop :=
  (∀ d : Word, decode (0b100#3 ++ d) = .vdecS) ∧
  (∀ s : State, s.decBusy = false →
    exec .vdecS s = .next { s with decBusy := true, decIdx := 0#3, decAcc := 0#32, decSigned := true }) ∧
  ∀ (s : State) (ts : List Turn), s.decBusy = true → s.decSigned = true → s.schedule = srcTurn :: ts →
    (∀ e rest, s.source = .fault e :: rest →
      step s = .next { s with
        schedule := ts, source := rest, decBusy := false
        received := s.received ++ [⟨.dec, ⟨.srcFault, none, some e⟩⟩] }) ∧
    (∀ b rest, s.source = .byte b :: rest → s.decIdx = 4#3 → b &&& 0xF0#8 ≠ 0#8 →
      step s = .next { s with
        schedule := ts, source := rest, consumed := s.consumed ++ [b], decBusy := false
        received := s.received ++ [⟨.dec, ⟨.overflow, none, none⟩⟩] }) ∧
    (∀ b rest, s.source = .byte b :: rest → ¬(s.decIdx = 4#3 ∧ b &&& 0xF0#8 ≠ 0#8) → b.getLsbD 7 = true →
      step s = .next { s with
        schedule := ts, source := rest, consumed := s.consumed ++ [b]
        decAcc := s.decAcc ||| ((b.extractLsb' 0 7).setWidth 32 <<< (7 * s.decIdx.toNat))
        decIdx := s.decIdx + 1#3 }) ∧
    (∀ b rest acc, s.source = .byte b :: rest → ¬(s.decIdx = 4#3 ∧ b &&& 0xF0#8 ≠ 0#8) → b.getLsbD 7 = false →
      acc = s.decAcc ||| ((b.extractLsb' 0 7).setWidth 32 <<< (7 * s.decIdx.toNat)) →
      step s = .next { s with
        schedule := ts, source := rest, consumed := s.consumed ++ [b], decBusy := false
        received := s.received ++
          [⟨.dec, ⟨.ok, some ((acc >>> 1) ^^^ (0#32 - (acc &&& 1#32))), none⟩⟩] })

/-- R75: VENC_S's encoding, its acceptance while `enc_busy` is 0, with ZZE applied, which leaves ENC in the very state in
which VENC_U of the zig-zag image leaves it, and the byte step of R67 by which ENC goes on, unchanged. -/
def Obligations.VencSWritesTheZigzagImage : Prop :=
  (∀ v : Word, decode (0b101#3 ++ v) = .vencS v) ∧
  (∀ (s : State) (v : Word), s.encBusy = false →
    exec (.vencS v) s =
      .next { s with encBusy := true, encIdx := 0#3, encRem := (v <<< 1) ^^^ (v.sshiftRight 31) } ∧
    exec (.vencS v) s = exec (.vencU ((v <<< 1) ^^^ (v.sshiftRight 31))) s) ∧
  ∀ (s : State) (ts : List Turn), s.encBusy = true → s.schedule = snkTurn :: ts →
    (∀ e rest, s.sink = .fault e :: rest →
      step s = .next { s with
        schedule := ts, sink := rest, encBusy := false
        offers := s.offers ++
          [⟨BitVec.ofBool (s.encRem >>> 7 != 0#32) ++ s.encRem.extractLsb' 0 7, .fault e⟩]
        received := s.received ++ [⟨.enc, ⟨.sinkFault, none, some e⟩⟩] }) ∧
    (∀ rest, s.sink = .ack :: rest → s.encRem >>> 7 = 0#32 →
      step s = .next { s with
        schedule := ts, sink := rest, encBusy := false
        offers := s.offers ++ [⟨0#1 ++ s.encRem.extractLsb' 0 7, .ack⟩]
        received := s.received ++ [⟨.enc, ⟨.ok, none, none⟩⟩] }) ∧
    (∀ rest, s.sink = .ack :: rest → s.encRem >>> 7 ≠ 0#32 →
      step s = .next { s with
        schedule := ts, sink := rest
        offers := s.offers ++ [⟨1#1 ++ s.encRem.extractLsb' 0 7, .ack⟩]
        encRem := s.encRem >>> 7, encIdx := s.encIdx + 1#3 })

/-- R57: a word with a reserved code has no meaning in any state: the step that offers it is refused. -/
def Obligations.ReservedCodesAreRefused : Prop :=
  (∀ s : State, exec .reserved110 s = .refused (.reservedCode 0b110#3)) ∧
  (∀ s : State, exec .reserved111 s = .refused (.reservedCode 0b111#3)) ∧
  ∀ (s : State) (d : Word) (ws : List CommandWord) (ts : List Turn), s.schedule = requestTurn :: ts →
    (s.requests = (0b110#3 ++ d : CommandWord) :: ws → step s = .refused (.reservedCode 0b110#3)) ∧
    (s.requests = (0b111#3 ++ d : CommandWord) :: ws → step s = .refused (.reservedCode 0b111#3))

/-- R88: every command that is not reserved may be offered in every state, and offering it is never a fault. -/
def Obligations.EveryCommandIsAvailableInEveryState : Prop :=
  ∀ (i : Instr) (s : State), i.wellFormed = true → ∃ t, exec i s = .next t

/-! ## Holding and waiting -/

/-- R22: a request offered to a busy unit is held, neither accepted nor dropped, and nothing else changes. -/
def Obligations.BusyUnitHoldsTheRequest : Prop :=
  ∀ s : State,
    (s.decBusy = true →
      exec .vdecU s = .next { s with decHeld := s.decHeld ++ [.vdecU] } ∧
      exec .vdecS s = .next { s with decHeld := s.decHeld ++ [.vdecS] }) ∧
    (s.encBusy = true → ∀ v,
      exec (.vencU v) s = .next { s with encHeld := s.encHeld ++ [.vencU v] } ∧
      exec (.vencS v) s = .next { s with encHeld := s.encHeld ++ [.vencS v] })

/-- R22: once its unit is idle, a held request can be accepted, with the effect of the command offered to the idle unit,
and is then held no longer; a busy unit accepts none. The model's choice: any held request may go first (log entry 5). -/
def Obligations.HeldRequestIsAcceptedWhenIdle : Prop :=
  ∀ (s : State) (k : Nat) (ts : List Turn),
    (s.schedule = ⟨false, .acceptDec k⟩ :: ts →
      (s.decBusy = true → step s = .next { s with schedule := ts }) ∧
      (s.decBusy = false → s.decHeld[k]? = some .vdecU →
        step s = exec .vdecU { s with schedule := ts, decHeld := s.decHeld.eraseIdx k }) ∧
      (s.decBusy = false → s.decHeld[k]? = some .vdecS →
        step s = exec .vdecS { s with schedule := ts, decHeld := s.decHeld.eraseIdx k })) ∧
    (s.schedule = ⟨false, .acceptEnc k⟩ :: ts →
      (s.encBusy = true → step s = .next { s with schedule := ts }) ∧
      ∀ v,
      (s.encBusy = false → s.encHeld[k]? = some (.vencU v) →
        step s = exec (.vencU v) { s with schedule := ts, encHeld := s.encHeld.eraseIdx k }) ∧
      (s.encBusy = false → s.encHeld[k]? = some (.vencS v) →
        step s = exec (.vencS v) { s with schedule := ts, encHeld := s.encHeld.eraseIdx k }))

/-- R40, R92: an idle unit takes no byte step, so no byte is pulled or pushed outside an operation. -/
def Obligations.IdleUnitTakesNoByteStep : Prop :=
  ∀ (s : State) (ts : List Turn),
    (s.decBusy = false → s.schedule = srcTurn :: ts → step s = .next { s with schedule := ts }) ∧
    (s.encBusy = false → s.schedule = snkTurn :: ts → step s = .next { s with schedule := ts })

/-- R105: while the source does not answer, no run without a reset takes DEC out of its operation, moves a byte or brings
a response of DEC, whatever the other agents do; and the same for the sink and ENC. -/
def Obligations.UnansweredUnitWaitsForEver : Prop :=
  ∀ (n : Nat) (s t : State), (∀ turn ∈ s.schedule, turn.reset = false) → runSteps n s = .next t →
    (s.decBusy = true → s.source = [] →
      t.decBusy = true ∧ t.decIdx = s.decIdx ∧ t.decAcc = s.decAcc ∧ t.decSigned = s.decSigned
        ∧ t.consumed = s.consumed ∧ t.responsesOf .dec = s.responsesOf .dec) ∧
    (s.encBusy = true → s.sink = [] →
      t.encBusy = true ∧ t.encIdx = s.encIdx ∧ t.encRem = s.encRem
        ∧ t.offers = s.offers ∧ t.responsesOf .enc = s.responsesOf .enc)

/-! ## Whole operations -/

/-- R64: from the acceptance of VDEC_U or VDEC_S by an idle DEC, as many turns of the source as `decodeU` makes pulls end
the operation with the outcome of `decodeU`: one response, the answers used up, the bytes consumed. Only DEC's dead
working registers are left open. -/
def Obligations.DecodeRunComputesDecodeU : Prop :=
  ∀ (s : State) (ts : List Turn) (r : DecodeResult), s.decBusy = false → decodeU s.source = some r →
    (∃ t idx acc, exec .vdecU s = .next t ∧
      runSteps r.pulls { t with schedule := List.replicate r.pulls srcTurn ++ ts } =
        .next { s with
          decIdx := idx, decAcc := acc, decSigned := false, schedule := ts
          source := s.source.drop r.pulls
          consumed := s.consumed ++ answeredBytes (s.source.take r.pulls)
          received := s.received ++ [⟨.dec, r.outcome.response false⟩] }) ∧
    (∃ t idx acc, exec .vdecS s = .next t ∧
      runSteps r.pulls { t with schedule := List.replicate r.pulls srcTurn ++ ts } =
        .next { s with
          decIdx := idx, decAcc := acc, decSigned := true, schedule := ts
          source := s.source.drop r.pulls
          consumed := s.consumed ++ answeredBytes (s.source.take r.pulls)
          received := s.received ++ [⟨.dec, r.outcome.response true⟩] })

/-- R65 and R66: after any number of turns of the source from the acceptance of a decode, at most 5 pulls have been made and
`dec_idx` is at most 4; while the operation is in flight `dec_idx` is the number of pulls and each has consumed a byte;
once it has ended there is exactly one response, the bytes consumed are those of all its pulls after OK and OVERFLOW,
and of all but the last after SRC_FAULT. -/
def Obligations.DecodeConsumesOneBytePerGroup : Prop :=
  ∀ (i : Instr) (n : Nat) (s t u : State), i = .vdecU ∨ i = .vdecS → s.decBusy = false → exec i s = .next t →
    runSteps n { t with schedule := List.replicate n srcTurn } = .next u →
    ∃ pulls, s.source = pulls ++ u.source ∧ pulls.length ≤ 5 ∧ u.decIdx.toNat ≤ 4 ∧
      (u.decBusy = true → u.received = s.received ∧ u.decIdx.toNat = pulls.length ∧
        ∃ bs, pulls = bs.map .byte ∧ u.consumed = s.consumed ++ bs) ∧
      (u.decBusy = false → 1 ≤ pulls.length ∧ ∃ resp, u.received = s.received ++ [⟨.dec, resp⟩] ∧
        (resp.status = .ok ∨ resp.status = .overflow →
          ∃ bs, pulls = bs.map .byte ∧ u.consumed = s.consumed ++ bs) ∧
        (resp.status = .srcFault →
          ∃ bs e, pulls = bs.map .byte ++ [.fault e] ∧ u.consumed = s.consumed ++ bs ∧ resp.err = some e) ∧
        resp.status ≠ .sinkFault)

/-- R46, R49, R50 with the mask of 90_conflicts.md C1: the decoder answers OK for exactly the well-formed encoded values,
with the OR of their groups, and OVERFLOW for exactly the malformed pattern, after five bytes. -/
def Obligations.DecoderAcceptsExactlyTheWellFormed : Prop :=
  (∀ (answers : List SrcAnswer) (v : Word) (n : Nat), decodeU answers = some ⟨.ok v, n⟩ ↔
    ∃ bs rest, answers = bs.map .byte ++ rest ∧ wellFormedEncoding bs = true ∧ v = wireValue bs ∧ n = bs.length) ∧
  (∀ (answers : List SrcAnswer) (n : Nat), decodeU answers = some ⟨.overflow, n⟩ ↔
    n = 5 ∧ ∃ bs rest, answers = bs.map .byte ++ rest ∧ malformedEncoding bs = true)

/-- R47: the value of an accepted encoded value has, at bit `i`, bit `i mod 7` of the byte with group index `i / 7`, and 0
where no group reaches. -/
def Obligations.AcceptedValueIsAssembledFromItsGroups : Prop :=
  ∀ (bs : List Byte) (rest : List SrcAnswer), wellFormedEncoding bs = true →
    ∃ v, decodeU (bs.map .byte ++ rest) = some ⟨.ok v, bs.length⟩ ∧
      (∀ i, i < 32 → v.getLsbD i = (bs.getD (i / 7) 0#8).getLsbD (i % 7)) ∧
      v.toNat = (bs.mapIdx fun k b => (b.toNat % 128) * 2 ^ (7 * k)).sum

/-- R51: putting off the end of an encoded value of fewer than five bytes by a zero group gives another well-formed
encoded value, and the decoder reads the same value, the OR of the groups, from both. -/
def Obligations.NonMinimalEncodingsAreAccepted : Prop :=
  ∀ (bs : List Byte) (last : Byte) (rest : List SrcAnswer), bs.length < 4 →
    wellFormedEncoding (bs ++ [last]) = true →
    wellFormedEncoding (bs ++ [last ||| 0x80#8, 0x00#8]) = true ∧
    ∃ v, v = wireValue (bs ++ [last]) ∧
      decodeU ((bs ++ [last]).map .byte ++ rest) = some ⟨.ok v, bs.length + 1⟩ ∧
      decodeU ((bs ++ [last ||| 0x80#8, 0x00#8]).map .byte ++ rest) = some ⟨.ok v, bs.length + 2⟩

/-- R67 to R69: from the acceptance of VENC_U or VENC_S by an idle ENC, as many turns of the sink as pushes are made end
the operation: the bytes of `encodeU` are offered in order up to the last or to the first the sink answers with a fault,
and one response comes. Only ENC's dead working registers are left open. -/
def Obligations.EncodeRunPushesEncodeU : Prop :=
  ∀ (s : State) (ts : List Turn) (v : Word), s.encBusy = false →
    (∀ r, pushAll (encodeU v) s.sink = some r →
      ∃ t idx rem, exec (.vencU v) s = .next t ∧
        runSteps r.pushes.length { t with schedule := List.replicate r.pushes.length snkTurn ++ ts } =
          .next { s with
            encIdx := idx, encRem := rem, schedule := ts, sink := s.sink.drop r.pushes.length
            offers := s.offers ++ r.pushes, received := s.received ++ [⟨.enc, r.outcome.response⟩] }) ∧
    (∀ r, pushAll (encodeU (zze v)) s.sink = some r →
      ∃ t idx rem, exec (.vencS v) s = .next t ∧
        runSteps r.pushes.length { t with schedule := List.replicate r.pushes.length snkTurn ++ ts } =
          .next { s with
            encIdx := idx, encRem := rem, schedule := ts, sink := s.sink.drop r.pushes.length
            offers := s.offers ++ r.pushes, received := s.received ++ [⟨.enc, r.outcome.response⟩] })

/-- R68, R69: the loop of `encodeU` ends by itself within five groups: more room changes nothing, and a value is never
cut off (log entry 18). -/
def Obligations.FiveGroupsAlwaysSuffice : Prop :=
  ∀ (n : Nat) (v : Word), encodeLoop (5 + n) v = encodeU v ∧ (encodeU v).length ≤ 5 ∧
    (encodeU v).getLast?.any (fun b => !b.getLsbD 7) = true

/-- R52: `encodeU v` is a well-formed encoding of `v` of length `max(1, ceil(bit_length(v)/7))`, its last byte is nonzero
unless `v` is 0, and it is the only such encoding. -/
def Obligations.EncoderEmitsTheOneCanonicalEncoding : Prop :=
  (∀ v : Word, wellFormedEncoding (encodeU v) = true ∧ wireValue (encodeU v) = v ∧
    (encodeU v).length = canonicalLength v ∧ (v ≠ 0#32 → (encodeU v).getLast? ≠ some 0#8)) ∧
  encodeU 0#32 = [0x00#8] ∧
  ∀ bs : List Byte, wellFormedEncoding bs = true → bs.getLast? ≠ some 0#8 → bs = encodeU (wireValue bs)

/-- R53: the length of the canonical encoding and the range of its last byte, by value range. -/
def Obligations.CanonicalLengthByRange : Prop :=
  ∀ v : Word, ∃ last, (encodeU v).getLast? = some last ∧
    (v.toNat ≤ 127 → (encodeU v).length = 1 ∧ last.toNat ≤ 0x7F) ∧
    (128 ≤ v.toNat → v.toNat ≤ 16383 → (encodeU v).length = 2 ∧ 1 ≤ last.toNat ∧ last.toNat ≤ 0x7F) ∧
    (16384 ≤ v.toNat → v.toNat ≤ 2097151 → (encodeU v).length = 3 ∧ 1 ≤ last.toNat ∧ last.toNat ≤ 0x7F) ∧
    (2097152 ≤ v.toNat → v.toNat ≤ 268435455 → (encodeU v).length = 4 ∧ 1 ≤ last.toNat ∧ last.toNat ≤ 0x7F) ∧
    (268435456 ≤ v.toNat → (encodeU v).length = 5 ∧ 1 ≤ last.toNat ∧ last.toNat ≤ 0x0F)

/-- R70: decoding the bytes of an encoding gives the value back and consumes them all, whatever follows them; and
encoding the value of a well-formed encoding gives that encoding exactly when it is canonical. -/
def Obligations.UnsignedRoundTrip : Prop :=
  (∀ (v : Word) (rest : List SrcAnswer),
    decodeU ((encodeU v).map .byte ++ rest) = some ⟨.ok v, (encodeU v).length⟩) ∧
  ∀ bs : List Byte, wellFormedEncoding bs = true →
    (encodeU (wireValue bs) = bs ↔ bs.length = canonicalLength (wireValue bs))

/-- R69, R100: when the sink fails, the bytes it has acknowledged are a proper beginning of the encoding, and every one of
them says that more bytes follow. -/
def Obligations.SinkFaultLeavesADanglingPrefix : Prop :=
  ∀ (v : Word) (answers : List SnkAnswer) (e : FaultValue) (pushes : List Push),
    pushAll (encodeU v) answers = some ⟨.sinkFault e, pushes⟩ →
    (∀ b ∈ acknowledged pushes, continues b = true) ∧
    ∃ b rest, encodeU v = acknowledged pushes ++ b :: rest ∧ pushes = (acknowledged pushes).map (⟨·, .ack⟩) ++
      [⟨b, .fault e⟩]

/-! ## The sign transform and the signed commands -/

/-- R73: ZZE and ZZD are inverse to each other on all 32-bit patterns, and over the integers ZZE maps v to 2v or to
-2v - 1. -/
def Obligations.ZigzagIsABijectionWithItsClosedForm : Prop :=
  (∀ v : Word, zzd (zze v) = v) ∧ (∀ u : Word, zze (zzd u) = u) ∧
  ∀ v : Word, (0 ≤ s32 v → (u32 (zze v) : Int) = 2 * s32 v) ∧ (s32 v < 0 → (u32 (zze v) : Int) = -2 * s32 v - 1)

/-- R76: VENC_S v is VENC_U of the result of ZZ_ENC v; and after any number of turns of the source VDEC_S and VDEC_U have
had the same traffic and the same responses, but for the OK data, which VDEC_S passes through ZZD. -/
def Obligations.SignedCommandsAreCompositions : Prop :=
  (∀ (s : State) (v : Word), s.encBusy = false → ∃ u,
    exec (.zzEnc v) s = .next { s with received := s.received ++ [⟨.zze, ⟨.ok, some u, none⟩⟩] } ∧
    exec (.vencS v) s = exec (.vencU u) s) ∧
  ∀ (n : Nat) (s tu ts : State), s.decBusy = false → exec .vdecU s = .next tu → exec .vdecS s = .next ts →
    ∃ (u : State) (rs : List Response),
      runSteps n { tu with schedule := List.replicate n srcTurn } =
        .next { u with received := s.received ++ rs.map (⟨.dec, ·⟩) } ∧
      runSteps n { ts with schedule := List.replicate n srcTurn } =
        .next { u with
          decSigned := true
          received := s.received ++ rs.map (fun r => ⟨.dec, ⟨r.status, r.data.map zzd, r.err⟩⟩) }

/-- R77, headline: VENC_S of any value to a sink that acknowledges, then VDEC_S from the bytes it has acknowledged, gives
(OK, the value), and consumes exactly those bytes. -/
def Obligations.SignedLoopbackRecoversTheValue : Prop :=
  ∀ (s : State) (v : Word) (acks : List SnkAnswer), s.encBusy = false → s.decBusy = false →
    s.sink = List.replicate (encodeU (zze v)).length .ack ++ acks →
    ∃ t u w x, exec (.vencS v) s = .next t ∧
      runSteps (encodeU (zze v)).length
        { t with schedule := List.replicate (encodeU (zze v)).length snkTurn } = .next u ∧
      exec .vdecS { u with source := (acknowledged (u.offers.drop s.offers.length)).map .byte } = .next w ∧
      runSteps (encodeU (zze v)).length
        { w with schedule := List.replicate (encodeU (zze v)).length srcTurn } = .next x ∧
      x.received = s.received ++ [⟨.enc, ⟨.ok, none, none⟩⟩, ⟨.dec, ⟨.ok, some v, none⟩⟩] ∧
      x.source = [] ∧ x.consumed = s.consumed ++ encodeU (zze v) ∧ x.decBusy = false ∧ x.encBusy = false

/-! ## Reset -/

/-- R29, R96: what `State.reset` holds where the rule gives a value: both units idle, nothing held, no response. -/
def Obligations.ResetStateIsIdle : Prop :=
  State.reset.decBusy = false ∧ State.reset.encBusy = false ∧ State.reset.decHeld = [] ∧ State.reset.encHeld = [] ∧
  State.reset.received = []

/-- R94, R95: a reset asserted in a turn takes priority over the turn's move, whatever it is: both units become idle and
no request is held; no byte moves, no response comes, and what was consumed, pushed or received before stays. The values
of the working registers after reset are the model's choice and left open here (log entry 6). R94 and R95 speak of the
steps of DEC and ENC; that a request offered or a read made in that turn does not happen either, and the request stays
with the requester, is the model's choice (log entry 24). -/
def Obligations.ResetTakesPriorityOverEveryMove : Prop :=
  ∀ (s : State) (m : Move) (ts : List Turn), s.schedule = ⟨true, m⟩ :: ts →
    ∃ di da ds ei er, step s = .next { s with
      schedule := ts, decBusy := false, encBusy := false, decHeld := [], encHeld := []
      decIdx := di, decAcc := da, decSigned := ds, encIdx := ei, encRem := er }

/-! ## Whole-machine rules -/

/-- The state after reset meets the invariants that every step keeps. That the indices of the idle units are at most 4
rests on the model's choice of zero (log entry 6). -/
def Obligations.ResetMeetsTheInvariants : Prop :=
  State.reset.Inv ∧ State.reset.responsesShaped

/-- R18, R19: every step, from every state that meets it and not only from reset, keeps the invariant that the group
indices stay in 0 to 4 and that the accumulator and the remaining value hold only the groups their index says. On a reset
turn this rests on the model's choice of zero (log entry 6). -/
def Obligations.StepKeepsGroupIndicesLegal : Prop :=
  ∀ s t : State, s.Inv → step s = .next t → t.Inv

/-- R23, R59, R78 to R80: every step keeps the invariant that each response received has exactly the fields the rule marks
present and a status its unit can report; so no encode overflows and no ZZ command fails. -/
def Obligations.StepKeepsResponsesShaped : Prop :=
  ∀ s t : State, s.responsesShaped → step s = .next t → t.responsesShaped

/-- R23, R83: a step brings a response of DEC exactly when it takes DEC from busy to idle without a reset, and the same
for ENC; a reset brings no response. -/
def Obligations.EachOperationGetsOneResponse : Prop :=
  ∀ (s t : State) (turn : Turn) (ts : List Turn), s.schedule = turn :: ts → step s = .next t →
    (turn.reset = false →
      (t.responsesOf .dec).length =
        (s.responsesOf .dec).length + (if s.decBusy = true ∧ t.decBusy = false then 1 else 0) ∧
      (t.responsesOf .enc).length =
        (s.responsesOf .enc).length + (if s.encBusy = true ∧ t.encBusy = false then 1 else 0)) ∧
    (turn.reset = true → t.received = s.received)

/-- R38, R39, R82: no step pushes a byte back, loses one or repeats one: the bytes consumed and those still to come stay
the same sequence. Nothing pushed, received or read is withdrawn. -/
def Obligations.NoTransferIsEverUndone : Prop :=
  ∀ s t : State, step s = .next t →
    s.consumed ++ answeredBytes s.source = t.consumed ++ answeredBytes t.source ∧
    t.source <:+ s.source ∧ s.consumed <+: t.consumed ∧
    t.sink <:+ s.sink ∧ s.offers <+: t.offers ∧ s.received <+: t.received ∧ s.taken <+: t.taken

/-- R42, R85: a turn of the source touches nothing of ENC, its stream or its held requests, and a turn of the sink nothing
of DEC's; neither touches the requester's commands or what it has read. -/
def Obligations.ByteStepsTouchOnlyTheirUnit : Prop :=
  ∀ (s t : State) (ts : List Turn),
    (s.schedule = srcTurn :: ts → step s = .next t →
      t = { s with
        schedule := ts, decBusy := t.decBusy, decIdx := t.decIdx, decAcc := t.decAcc
        source := t.source, consumed := t.consumed, received := t.received } ∧
      ∀ u, u ≠ .dec → t.responsesOf u = s.responsesOf u) ∧
    (s.schedule = snkTurn :: ts → step s = .next t →
      t = { s with
        schedule := ts, encBusy := t.encBusy, encIdx := t.encIdx, encRem := t.encRem
        sink := t.sink, offers := t.offers, received := t.received } ∧
      ∀ u, u ≠ .enc → t.responsesOf u = s.responsesOf u)

/-- R42, R85: a byte step of DEC and a byte step of ENC give the same result in either order, but for the order in which
the two units' responses arrive. -/
def Obligations.ByteStepsOfTheUnitsCommute : Prop :=
  ∀ (s : State) (ts : List Turn), ∃ t u,
    runSteps 2 { s with schedule := srcTurn :: snkTurn :: ts } = .next t ∧
    runSteps 2 { s with schedule := snkTurn :: srcTurn :: ts } = .next u ∧
    u = { t with received := u.received } ∧ ∀ unit, u.responsesOf unit = t.responsesOf unit

/-- R30: an unspecified value after reset, or one left by an earlier operation, is never observable: blanking the working
registers of idle units changes no run, but for those registers while they are dead. -/
def Obligations.DeadRegistersAreNeverObserved : Prop :=
  ∀ (n : Nat) (s : State), mapNext State.live (runSteps n s.live) = mapNext State.live (runSteps n s)

/-- R10, R79: the block never interprets a fault value: renaming the fault values the source and sink give renames those
in the responses and changes nothing else. -/
def Obligations.FaultValuesPassThroughUninterpreted : Prop :=
  ∀ (f : FaultValue → FaultValue) (n : Nat) (s : State),
    runSteps n (s.rename f) = mapNext (State.rename f) (runSteps n s)

/-- R101, R87: the requester reads a field that its response has, and gets its value: for the status the code that R59
gives it, 00, 01, 10 or 11. Reading an absent field, or a response that has not arrived, is a fault. Nothing of the block
changes (log entry 9). -/
def Obligations.AbsentFieldsCannotBeRead : Prop :=
  ∀ (s : State) (k : Nat) (f : ResponseField) (ts : List Turn), s.schedule = ⟨false, .read k f⟩ :: ts →
    (s.received.length ≤ k → step s = .fault (.readBeforeResponse f)) ∧
    ∀ d, s.received[k]? = some d →
      (f = .status → d.response.status = .ok →
        step s = .next { s with schedule := ts, taken := s.taken ++ [.status 0b00#2] }) ∧
      (f = .status → d.response.status = .overflow →
        step s = .next { s with schedule := ts, taken := s.taken ++ [.status 0b01#2] }) ∧
      (f = .status → d.response.status = .srcFault →
        step s = .next { s with schedule := ts, taken := s.taken ++ [.status 0b10#2] }) ∧
      (f = .status → d.response.status = .sinkFault →
        step s = .next { s with schedule := ts, taken := s.taken ++ [.status 0b11#2] }) ∧
      (f = .data → d.response.data = none → step s = .fault (.absentField .data)) ∧
      (f = .err → d.response.err = none → step s = .fault (.absentField .err)) ∧
      (∀ v, f = .data → d.response.data = some v →
        step s = .next { s with schedule := ts, taken := s.taken ++ [.data v] }) ∧
      (∀ e, f = .err → d.response.err = some e →
        step s = .next { s with schedule := ts, taken := s.taken ++ [.err e] })
end

