-- ==== Sys2Proof/Laws/Decode.lean ====
section
/-!
SUPPORT. The two fields of a command word: a word is its `op` and its `data`, and nothing else (R55).
-/

namespace Sys2Proof

theorem getLsbD_commandWord (o : OpCode) (d : Word) (i : Nat) :
    BitVec.getLsbD (o ++ d : CommandWord) i = if i < 32 then d.getLsbD i else o.getLsbD (i - 32) := by
  have h := BitVec.getLsbD_append (x := o) (y := d) (i := i)
  rw [h]

theorem opField_append (o : OpCode) (d : Word) : opField (o ++ d : CommandWord) = o := by
  apply BitVec.eq_of_getLsbD_eq
  intro i hi
  rw [opField, BitVec.getLsbD_extractLsb', getLsbD_commandWord]
  simp [hi]

theorem dataField_append (o : OpCode) (d : Word) : dataField (o ++ d : CommandWord) = d := by
  apply BitVec.eq_of_getLsbD_eq
  intro i hi
  rw [dataField, BitVec.getLsbD_extractLsb', getLsbD_commandWord]
  simp [hi]

theorem append_opField_dataField (w : CommandWord) : opField w ++ dataField w = w := by
  apply BitVec.eq_of_getLsbD_eq
  intro i hi
  rw [getLsbD_commandWord, opField, dataField, BitVec.getLsbD_extractLsb', BitVec.getLsbD_extractLsb']
  by_cases h : i < 32
  · simp [h]
  · have h3 : i - 32 < 3 := by omega
    have h4 : 32 + (i - 32) = i := by omega
    simp [h, h3, h4]

/-- The eight command codes. -/
theorem opCode_cases (o : OpCode) :
    o = 0b000#3 ∨ o = 0b001#3 ∨ o = 0b010#3 ∨ o = 0b011#3 ∨ o = 0b100#3 ∨ o = 0b101#3 ∨ o = 0b110#3
      ∨ o = 0b111#3 := by
  revert o
  decide

end Sys2Proof
end

