-- ==== Sys2Proof/Laws/State.lean ====
section
/-!
SUPPORT. What each named update of the state leaves in each field: one lemma per field per update, so that no later proof
unfolds an update of the record.
-/

namespace Sys2Proof.Machine

/-! ## Fault values -/

/-- Every fault value can be written out by a number. -/
theorem FaultValue.exists_named (e : FaultValue) : ∃ k, e = .named k := by
  obtain ⟨v, k, rfl⟩ := e
  exact ⟨k, rfl⟩

/-! ## Delivering a response -/

@[simp] theorem respond_decBusy (u : UnitName) (r : Response) (s : State) :
    (s.respond u r).decBusy = s.decBusy := rfl
@[simp] theorem respond_decIdx (u : UnitName) (r : Response) (s : State) :
    (s.respond u r).decIdx = s.decIdx := rfl
@[simp] theorem respond_decAcc (u : UnitName) (r : Response) (s : State) :
    (s.respond u r).decAcc = s.decAcc := rfl
@[simp] theorem respond_decSigned (u : UnitName) (r : Response) (s : State) :
    (s.respond u r).decSigned = s.decSigned := rfl
@[simp] theorem respond_encBusy (u : UnitName) (r : Response) (s : State) :
    (s.respond u r).encBusy = s.encBusy := rfl
@[simp] theorem respond_encIdx (u : UnitName) (r : Response) (s : State) :
    (s.respond u r).encIdx = s.encIdx := rfl
@[simp] theorem respond_encRem (u : UnitName) (r : Response) (s : State) :
    (s.respond u r).encRem = s.encRem := rfl
@[simp] theorem respond_decHeld (u : UnitName) (r : Response) (s : State) :
    (s.respond u r).decHeld = s.decHeld := rfl
@[simp] theorem respond_encHeld (u : UnitName) (r : Response) (s : State) :
    (s.respond u r).encHeld = s.encHeld := rfl
@[simp] theorem respond_requests (u : UnitName) (r : Response) (s : State) :
    (s.respond u r).requests = s.requests := rfl
@[simp] theorem respond_received (u : UnitName) (r : Response) (s : State) :
    (s.respond u r).received = s.received ++ [⟨u, r⟩] := rfl
@[simp] theorem respond_taken (u : UnitName) (r : Response) (s : State) :
    (s.respond u r).taken = s.taken := rfl
@[simp] theorem respond_source (u : UnitName) (r : Response) (s : State) :
    (s.respond u r).source = s.source := rfl
@[simp] theorem respond_consumed (u : UnitName) (r : Response) (s : State) :
    (s.respond u r).consumed = s.consumed := rfl
@[simp] theorem respond_sink (u : UnitName) (r : Response) (s : State) :
    (s.respond u r).sink = s.sink := rfl
@[simp] theorem respond_offers (u : UnitName) (r : Response) (s : State) :
    (s.respond u r).offers = s.offers := rfl
@[simp] theorem respond_schedule (u : UnitName) (r : Response) (s : State) :
    (s.respond u r).schedule = s.schedule := rfl

/-! ## DEC becomes idle -/

@[simp] theorem idleDec_decBusy (s : State) :
    (s.idleDec).decBusy = false := rfl
@[simp] theorem idleDec_decIdx (s : State) :
    (s.idleDec).decIdx = s.decIdx := rfl
@[simp] theorem idleDec_decAcc (s : State) :
    (s.idleDec).decAcc = s.decAcc := rfl
@[simp] theorem idleDec_decSigned (s : State) :
    (s.idleDec).decSigned = s.decSigned := rfl
@[simp] theorem idleDec_encBusy (s : State) :
    (s.idleDec).encBusy = s.encBusy := rfl
@[simp] theorem idleDec_encIdx (s : State) :
    (s.idleDec).encIdx = s.encIdx := rfl
@[simp] theorem idleDec_encRem (s : State) :
    (s.idleDec).encRem = s.encRem := rfl
@[simp] theorem idleDec_decHeld (s : State) :
    (s.idleDec).decHeld = s.decHeld := rfl
@[simp] theorem idleDec_encHeld (s : State) :
    (s.idleDec).encHeld = s.encHeld := rfl
@[simp] theorem idleDec_requests (s : State) :
    (s.idleDec).requests = s.requests := rfl
@[simp] theorem idleDec_received (s : State) :
    (s.idleDec).received = s.received := rfl
@[simp] theorem idleDec_taken (s : State) :
    (s.idleDec).taken = s.taken := rfl
@[simp] theorem idleDec_source (s : State) :
    (s.idleDec).source = s.source := rfl
@[simp] theorem idleDec_consumed (s : State) :
    (s.idleDec).consumed = s.consumed := rfl
@[simp] theorem idleDec_sink (s : State) :
    (s.idleDec).sink = s.sink := rfl
@[simp] theorem idleDec_offers (s : State) :
    (s.idleDec).offers = s.offers := rfl
@[simp] theorem idleDec_schedule (s : State) :
    (s.idleDec).schedule = s.schedule := rfl

/-! ## ENC becomes idle -/

@[simp] theorem idleEnc_decBusy (s : State) :
    (s.idleEnc).decBusy = s.decBusy := rfl
@[simp] theorem idleEnc_decIdx (s : State) :
    (s.idleEnc).decIdx = s.decIdx := rfl
@[simp] theorem idleEnc_decAcc (s : State) :
    (s.idleEnc).decAcc = s.decAcc := rfl
@[simp] theorem idleEnc_decSigned (s : State) :
    (s.idleEnc).decSigned = s.decSigned := rfl
@[simp] theorem idleEnc_encBusy (s : State) :
    (s.idleEnc).encBusy = false := rfl
@[simp] theorem idleEnc_encIdx (s : State) :
    (s.idleEnc).encIdx = s.encIdx := rfl
@[simp] theorem idleEnc_encRem (s : State) :
    (s.idleEnc).encRem = s.encRem := rfl
@[simp] theorem idleEnc_decHeld (s : State) :
    (s.idleEnc).decHeld = s.decHeld := rfl
@[simp] theorem idleEnc_encHeld (s : State) :
    (s.idleEnc).encHeld = s.encHeld := rfl
@[simp] theorem idleEnc_requests (s : State) :
    (s.idleEnc).requests = s.requests := rfl
@[simp] theorem idleEnc_received (s : State) :
    (s.idleEnc).received = s.received := rfl
@[simp] theorem idleEnc_taken (s : State) :
    (s.idleEnc).taken = s.taken := rfl
@[simp] theorem idleEnc_source (s : State) :
    (s.idleEnc).source = s.source := rfl
@[simp] theorem idleEnc_consumed (s : State) :
    (s.idleEnc).consumed = s.consumed := rfl
@[simp] theorem idleEnc_sink (s : State) :
    (s.idleEnc).sink = s.sink := rfl
@[simp] theorem idleEnc_offers (s : State) :
    (s.idleEnc).offers = s.offers := rfl
@[simp] theorem idleEnc_schedule (s : State) :
    (s.idleEnc).schedule = s.schedule := rfl

/-! ## DEC accepts -/

@[simp] theorem acceptDec_decBusy (c : DecRequest) (s : State) :
    (acceptDec c s).decBusy = true := rfl
@[simp] theorem acceptDec_decIdx (c : DecRequest) (s : State) :
    (acceptDec c s).decIdx = 0#3 := rfl
@[simp] theorem acceptDec_decAcc (c : DecRequest) (s : State) :
    (acceptDec c s).decAcc = 0#32 := rfl
@[simp] theorem acceptDec_decSigned (c : DecRequest) (s : State) :
    (acceptDec c s).decSigned = (match c with | .vdecU => false | .vdecS => true) := rfl
@[simp] theorem acceptDec_encBusy (c : DecRequest) (s : State) :
    (acceptDec c s).encBusy = s.encBusy := rfl
@[simp] theorem acceptDec_encIdx (c : DecRequest) (s : State) :
    (acceptDec c s).encIdx = s.encIdx := rfl
@[simp] theorem acceptDec_encRem (c : DecRequest) (s : State) :
    (acceptDec c s).encRem = s.encRem := rfl
@[simp] theorem acceptDec_decHeld (c : DecRequest) (s : State) :
    (acceptDec c s).decHeld = s.decHeld := rfl
@[simp] theorem acceptDec_encHeld (c : DecRequest) (s : State) :
    (acceptDec c s).encHeld = s.encHeld := rfl
@[simp] theorem acceptDec_requests (c : DecRequest) (s : State) :
    (acceptDec c s).requests = s.requests := rfl
@[simp] theorem acceptDec_received (c : DecRequest) (s : State) :
    (acceptDec c s).received = s.received := rfl
@[simp] theorem acceptDec_taken (c : DecRequest) (s : State) :
    (acceptDec c s).taken = s.taken := rfl
@[simp] theorem acceptDec_source (c : DecRequest) (s : State) :
    (acceptDec c s).source = s.source := rfl
@[simp] theorem acceptDec_consumed (c : DecRequest) (s : State) :
    (acceptDec c s).consumed = s.consumed := rfl
@[simp] theorem acceptDec_sink (c : DecRequest) (s : State) :
    (acceptDec c s).sink = s.sink := rfl
@[simp] theorem acceptDec_offers (c : DecRequest) (s : State) :
    (acceptDec c s).offers = s.offers := rfl
@[simp] theorem acceptDec_schedule (c : DecRequest) (s : State) :
    (acceptDec c s).schedule = s.schedule := rfl

/-! ## ENC accepts -/

@[simp] theorem acceptEnc_decBusy (c : EncRequest) (s : State) :
    (acceptEnc c s).decBusy = s.decBusy := rfl
@[simp] theorem acceptEnc_decIdx (c : EncRequest) (s : State) :
    (acceptEnc c s).decIdx = s.decIdx := rfl
@[simp] theorem acceptEnc_decAcc (c : EncRequest) (s : State) :
    (acceptEnc c s).decAcc = s.decAcc := rfl
@[simp] theorem acceptEnc_decSigned (c : EncRequest) (s : State) :
    (acceptEnc c s).decSigned = s.decSigned := rfl
@[simp] theorem acceptEnc_encBusy (c : EncRequest) (s : State) :
    (acceptEnc c s).encBusy = true := rfl
@[simp] theorem acceptEnc_encIdx (c : EncRequest) (s : State) :
    (acceptEnc c s).encIdx = 0#3 := rfl
@[simp] theorem acceptEnc_encRem (c : EncRequest) (s : State) :
    (acceptEnc c s).encRem = c.start := rfl
@[simp] theorem acceptEnc_decHeld (c : EncRequest) (s : State) :
    (acceptEnc c s).decHeld = s.decHeld := rfl
@[simp] theorem acceptEnc_encHeld (c : EncRequest) (s : State) :
    (acceptEnc c s).encHeld = s.encHeld := rfl
@[simp] theorem acceptEnc_requests (c : EncRequest) (s : State) :
    (acceptEnc c s).requests = s.requests := rfl
@[simp] theorem acceptEnc_received (c : EncRequest) (s : State) :
    (acceptEnc c s).received = s.received := rfl
@[simp] theorem acceptEnc_taken (c : EncRequest) (s : State) :
    (acceptEnc c s).taken = s.taken := rfl
@[simp] theorem acceptEnc_source (c : EncRequest) (s : State) :
    (acceptEnc c s).source = s.source := rfl
@[simp] theorem acceptEnc_consumed (c : EncRequest) (s : State) :
    (acceptEnc c s).consumed = s.consumed := rfl
@[simp] theorem acceptEnc_sink (c : EncRequest) (s : State) :
    (acceptEnc c s).sink = s.sink := rfl
@[simp] theorem acceptEnc_offers (c : EncRequest) (s : State) :
    (acceptEnc c s).offers = s.offers := rfl
@[simp] theorem acceptEnc_schedule (c : EncRequest) (s : State) :
    (acceptEnc c s).schedule = s.schedule := rfl

/-! ## Reset -/

@[simp] theorem resetBlock_decBusy (s : State) :
    (resetBlock s).decBusy = false := rfl
@[simp] theorem resetBlock_decIdx (s : State) :
    (resetBlock s).decIdx = 0#3 := rfl
@[simp] theorem resetBlock_decAcc (s : State) :
    (resetBlock s).decAcc = 0#32 := rfl
@[simp] theorem resetBlock_decSigned (s : State) :
    (resetBlock s).decSigned = false := rfl
@[simp] theorem resetBlock_encBusy (s : State) :
    (resetBlock s).encBusy = false := rfl
@[simp] theorem resetBlock_encIdx (s : State) :
    (resetBlock s).encIdx = 0#3 := rfl
@[simp] theorem resetBlock_encRem (s : State) :
    (resetBlock s).encRem = 0#32 := rfl
@[simp] theorem resetBlock_decHeld (s : State) :
    (resetBlock s).decHeld = [] := rfl
@[simp] theorem resetBlock_encHeld (s : State) :
    (resetBlock s).encHeld = [] := rfl
@[simp] theorem resetBlock_requests (s : State) :
    (resetBlock s).requests = s.requests := rfl
@[simp] theorem resetBlock_received (s : State) :
    (resetBlock s).received = s.received := rfl
@[simp] theorem resetBlock_taken (s : State) :
    (resetBlock s).taken = s.taken := rfl
@[simp] theorem resetBlock_source (s : State) :
    (resetBlock s).source = s.source := rfl
@[simp] theorem resetBlock_consumed (s : State) :
    (resetBlock s).consumed = s.consumed := rfl
@[simp] theorem resetBlock_sink (s : State) :
    (resetBlock s).sink = s.sink := rfl
@[simp] theorem resetBlock_offers (s : State) :
    (resetBlock s).offers = s.offers := rfl
@[simp] theorem resetBlock_schedule (s : State) :
    (resetBlock s).schedule = s.schedule := rfl

end Sys2Proof.Machine
end

