-- ==== Sys2Proof/Laws/Ops.lean ====
section
/-!
SUPPORT. What each shared operation can do, said once: the ends of an operation, acceptance and holding, the byte steps,
the requester's read, and the commands. Proofs cite these and do not unfold the operations.
-/

namespace Sys2Proof.Machine

/-! ## The ends of an operation -/

theorem finish_dec (d : Option Word) (s : State) :
    finish .dec d s = { s with decBusy := false, received := s.received ++ [⟨.dec, ⟨.ok, d, none⟩⟩] } := rfl

theorem finish_enc (d : Option Word) (s : State) :
    finish .enc d s = { s with encBusy := false, received := s.received ++ [⟨.enc, ⟨.ok, d, none⟩⟩] } := rfl

theorem finish_zze (d : Option Word) (s : State) :
    finish .zze d s = { s with received := s.received ++ [⟨.zze, ⟨.ok, d, none⟩⟩] } := rfl

theorem finish_zzd (d : Option Word) (s : State) :
    finish .zzd d s = { s with received := s.received ++ [⟨.zzd, ⟨.ok, d, none⟩⟩] } := rfl

/-- Taking a failure in DEC: idle, one response, nothing saved or undone (R81). -/
theorem takeFailure_dec (st : Status) (e : Option FaultValue) (s : State) :
    takeFailure .dec st e s = { s with decBusy := false, received := s.received ++ [⟨.dec, ⟨st, none, e⟩⟩] } := rfl

/-- Taking a failure in ENC: idle, one response, nothing saved or undone (R81). -/
theorem takeFailure_enc (st : Status) (e : Option FaultValue) (s : State) :
    takeFailure .enc st e s = { s with encBusy := false, received := s.received ++ [⟨.enc, ⟨st, none, e⟩⟩] } := rfl

/-! ## Acceptance and holding -/

theorem offerDec_idle {s : State} (h : s.decBusy = false) (c : DecRequest) : offerDec c s = acceptDec c s := by
  simp [offerDec, h]

theorem offerDec_busy {s : State} (h : s.decBusy = true) (c : DecRequest) :
    offerDec c s = { s with decHeld := s.decHeld ++ [c] } := by
  simp [offerDec, h]

theorem offerEnc_idle {s : State} (h : s.encBusy = false) (c : EncRequest) : offerEnc c s = acceptEnc c s := by
  simp [offerEnc, h]

theorem offerEnc_busy {s : State} (h : s.encBusy = true) (c : EncRequest) :
    offerEnc c s = { s with encHeld := s.encHeld ++ [c] } := by
  simp [offerEnc, h]

/-- Everything offering a request to DEC can do: it is held or accepted (R22). -/
theorem offerDec_cases (c : DecRequest) (s : State) :
    (s.decBusy = true ∧ offerDec c s = { s with decHeld := s.decHeld ++ [c] }) ∨
    (s.decBusy = false ∧ offerDec c s = acceptDec c s) := by
  rcases Bool.eq_false_or_eq_true s.decBusy with h | h
  · exact .inl ⟨h, offerDec_busy h c⟩
  · exact .inr ⟨h, offerDec_idle h c⟩

/-- Everything offering a request to ENC can do: it is held or accepted (R22). -/
theorem offerEnc_cases (c : EncRequest) (s : State) :
    (s.encBusy = true ∧ offerEnc c s = { s with encHeld := s.encHeld ++ [c] }) ∨
    (s.encBusy = false ∧ offerEnc c s = acceptEnc c s) := by
  rcases Bool.eq_false_or_eq_true s.encBusy with h | h
  · exact .inl ⟨h, offerEnc_busy h c⟩
  · exact .inr ⟨h, offerEnc_idle h c⟩

/-- A turn in which DEC may accept a held request: it accepts one while idle, or nothing happens (R22). -/
theorem acceptHeldDec_cases (k : Nat) (s : State) :
    (s.decBusy = false ∧ ∃ c, s.decHeld[k]? = some c ∧
      acceptHeldDec k s = acceptDec c { s with decHeld := s.decHeld.eraseIdx k }) ∨
    (acceptHeldDec k s = s ∧ (s.decBusy = true ∨ s.decHeld[k]? = none)) := by
  unfold acceptHeldDec
  cases hb : s.decBusy
  · cases hk : s.decHeld[k]? <;> simp
  · simp

/-- A turn in which ENC may accept a held request: it accepts one while idle, or nothing happens (R22). -/
theorem acceptHeldEnc_cases (k : Nat) (s : State) :
    (s.encBusy = false ∧ ∃ c, s.encHeld[k]? = some c ∧
      acceptHeldEnc k s = acceptEnc c { s with encHeld := s.encHeld.eraseIdx k }) ∨
    (acceptHeldEnc k s = s ∧ (s.encBusy = true ∨ s.encHeld[k]? = none)) := by
  unfold acceptHeldEnc
  cases hb : s.encBusy
  · cases hk : s.encHeld[k]? <;> simp
  · simp

/-! ## The byte step of DEC -/

theorem decStep_idle {s : State} (h : s.decBusy = false) : decStep s = s := by
  simp [decStep, h]

theorem decStep_waits {s : State} (hs : s.source = []) : decStep s = s := by
  simp [decStep, hs]

theorem decStep_fault {s : State} {e : FaultValue} {rest : List SrcAnswer} (h : s.decBusy = true)
    (hs : s.source = .fault e :: rest) :
    decStep s = { s with
      decBusy := false, source := rest, received := s.received ++ [⟨.dec, ⟨.srcFault, none, some e⟩⟩] } := by
  simp [decStep, h, hs, takeFailure_dec]

theorem decStep_overflow {s : State} {b : Byte} {rest : List SrcAnswer} (h : s.decBusy = true)
    (hs : s.source = .byte b :: rest) (hi : s.decIdx = 4#3) (ho : fifthOverflows b = true) :
    decStep s = { s with
      decBusy := false, source := rest, consumed := s.consumed ++ [b]
      received := s.received ++ [⟨.dec, ⟨.overflow, none, none⟩⟩] } := by
  simp [decStep, h, hs, decByte, hi, ho, takeFailure_dec]

theorem decStep_continues {s : State} {b : Byte} {rest : List SrcAnswer} (h : s.decBusy = true)
    (hs : s.source = .byte b :: rest) (ho : ¬(s.decIdx = 4#3 ∧ fifthOverflows b = true)) (hc : continues b = true) :
    decStep s = { s with
      source := rest, consumed := s.consumed ++ [b]
      decAcc := s.decAcc ||| placed s.decIdx.toNat b, decIdx := s.decIdx + 1#3 } := by
  simp only [decStep, h, hs, if_true, decByte]
  rw [if_neg ho, if_pos hc]

theorem decStep_ends {s : State} {b : Byte} {rest : List SrcAnswer} (h : s.decBusy = true)
    (hs : s.source = .byte b :: rest) (ho : ¬(s.decIdx = 4#3 ∧ fifthOverflows b = true)) (hc : continues b = false) :
    decStep s = { s with
      decBusy := false, source := rest, consumed := s.consumed ++ [b]
      received := s.received ++
        [⟨.dec, ⟨.ok, some (decResult s.decSigned (s.decAcc ||| placed s.decIdx.toNat b)), none⟩⟩] } := by
  simp only [decStep, h, hs, if_true, decByte]
  rw [if_neg ho, if_neg (by simp [hc]), finish_dec]

/-- Everything a turn of the source can do: nothing, or one of the four ends of DEC's byte step (R63, R84). -/
theorem decStep_cases (s : State) :
    (decStep s = s ∧ (s.decBusy = false ∨ s.source = [])) ∨
    (∃ e rest, s.decBusy = true ∧ s.source = .fault e :: rest ∧
      decStep s = { s with
        decBusy := false, source := rest, received := s.received ++ [⟨.dec, ⟨.srcFault, none, some e⟩⟩] }) ∨
    (∃ b rest, s.decBusy = true ∧ s.source = .byte b :: rest ∧ s.decIdx = 4#3 ∧ fifthOverflows b = true ∧
      decStep s = { s with
        decBusy := false, source := rest, consumed := s.consumed ++ [b]
        received := s.received ++ [⟨.dec, ⟨.overflow, none, none⟩⟩] }) ∨
    (∃ b rest, s.decBusy = true ∧ s.source = .byte b :: rest ∧ ¬(s.decIdx = 4#3 ∧ fifthOverflows b = true) ∧
      continues b = true ∧
      decStep s = { s with
        source := rest, consumed := s.consumed ++ [b]
        decAcc := s.decAcc ||| placed s.decIdx.toNat b, decIdx := s.decIdx + 1#3 }) ∨
    (∃ b rest, s.decBusy = true ∧ s.source = .byte b :: rest ∧ ¬(s.decIdx = 4#3 ∧ fifthOverflows b = true) ∧
      continues b = false ∧
      decStep s = { s with
        decBusy := false, source := rest, consumed := s.consumed ++ [b]
        received := s.received ++
          [⟨.dec, ⟨.ok, some (decResult s.decSigned (s.decAcc ||| placed s.decIdx.toNat b)), none⟩⟩] }) := by
  rcases Bool.eq_false_or_eq_true s.decBusy with hb | hb
  · rcases hs : s.source with _ | ⟨_ | e, rest⟩
    · exact .inl ⟨decStep_waits hs, .inr rfl⟩
    · rename_i b
      by_cases ho : s.decIdx = 4#3 ∧ fifthOverflows b = true
      · exact .inr (.inr (.inl ⟨b, rest, hb, rfl, ho.1, ho.2, decStep_overflow hb hs ho.1 ho.2⟩))
      · cases hc : continues b with
        | true => exact .inr (.inr (.inr (.inl ⟨b, rest, hb, rfl, ho, hc, decStep_continues hb hs ho hc⟩)))
        | false => exact .inr (.inr (.inr (.inr ⟨b, rest, hb, rfl, ho, hc, decStep_ends hb hs ho hc⟩)))
    · exact .inr (.inl ⟨e, rest, hb, rfl, decStep_fault hb hs⟩)
  · exact .inl ⟨decStep_idle hb, .inl hb⟩

/-! ## The byte step of ENC -/

theorem encStep_idle {s : State} (h : s.encBusy = false) : encStep s = s := by
  simp [encStep, h]

theorem encStep_waits {s : State} (hs : s.sink = []) : encStep s = s := by
  simp [encStep, hs]

theorem encStep_fault {s : State} {e : FaultValue} {rest : List SnkAnswer} (h : s.encBusy = true)
    (hs : s.sink = .fault e :: rest) :
    encStep s = { s with
      encBusy := false, sink := rest, offers := s.offers ++ [⟨groupByte s.encRem, .fault e⟩]
      received := s.received ++ [⟨.enc, ⟨.sinkFault, none, some e⟩⟩] } := by
  simp [encStep, h, hs, takeFailure_enc]

theorem encStep_continues {s : State} {rest : List SnkAnswer} (h : s.encBusy = true) (hs : s.sink = .ack :: rest)
    (hm : moreGroups s.encRem = true) :
    encStep s = { s with
      sink := rest, offers := s.offers ++ [⟨groupByte s.encRem, .ack⟩]
      encRem := dropGroup s.encRem, encIdx := s.encIdx + 1#3 } := by
  simp [encStep, h, hs, encAcked, hm]

theorem encStep_ends {s : State} {rest : List SnkAnswer} (h : s.encBusy = true) (hs : s.sink = .ack :: rest)
    (hm : moreGroups s.encRem = false) :
    encStep s = { s with
      encBusy := false, sink := rest, offers := s.offers ++ [⟨groupByte s.encRem, .ack⟩]
      received := s.received ++ [⟨.enc, ⟨.ok, none, none⟩⟩] } := by
  simp [encStep, h, hs, encAcked, hm, finish_enc]

/-- Everything a turn of the sink can do: nothing, or one of the three ends of ENC's byte step (R67, R84). -/
theorem encStep_cases (s : State) :
    (encStep s = s ∧ (s.encBusy = false ∨ s.sink = [])) ∨
    (∃ e rest, s.encBusy = true ∧ s.sink = .fault e :: rest ∧
      encStep s = { s with
        encBusy := false, sink := rest, offers := s.offers ++ [⟨groupByte s.encRem, .fault e⟩]
        received := s.received ++ [⟨.enc, ⟨.sinkFault, none, some e⟩⟩] }) ∨
    (∃ rest, s.encBusy = true ∧ s.sink = .ack :: rest ∧ moreGroups s.encRem = true ∧
      encStep s = { s with
        sink := rest, offers := s.offers ++ [⟨groupByte s.encRem, .ack⟩]
        encRem := dropGroup s.encRem, encIdx := s.encIdx + 1#3 }) ∨
    (∃ rest, s.encBusy = true ∧ s.sink = .ack :: rest ∧ moreGroups s.encRem = false ∧
      encStep s = { s with
        encBusy := false, sink := rest, offers := s.offers ++ [⟨groupByte s.encRem, .ack⟩]
        received := s.received ++ [⟨.enc, ⟨.ok, none, none⟩⟩] }) := by
  rcases Bool.eq_false_or_eq_true s.encBusy with hb | hb
  · rcases hs : s.sink with _ | ⟨_ | e, rest⟩
    · exact .inl ⟨encStep_waits hs, .inr rfl⟩
    · rcases Bool.eq_false_or_eq_true (moreGroups s.encRem) with hm | hm
      · exact .inr (.inr (.inl ⟨rest, hb, rfl, hm, encStep_continues hb hs hm⟩))
      · exact .inr (.inr (.inr ⟨rest, hb, rfl, hm, encStep_ends hb hs hm⟩))
    · exact .inr (.inl ⟨e, rest, hb, rfl, encStep_fault hb hs⟩)
  · exact .inl ⟨encStep_idle hb, .inl hb⟩

/-! ## The requester's read, and the commands -/

/-- A read that answers next has read a present field of a response that has arrived, and changes nothing else (R101). -/
theorem readField_next {k : Nat} {f : ResponseField} {s t : State} (h : readField k f s = .next t) :
    ∃ d v, s.received[k]? = some d ∧ d.response.read f = some v ∧ t = { s with taken := s.taken ++ [v] } := by
  unfold readField at h
  split at h
  · cases h
  · rename_i d hd
    split at h
    · cases h
    · rename_i v hv
      cases h
      exact ⟨d, v, hd, hv, rfl⟩

/-- Everything a command can do when it answers next: its unit accepts or holds it, or its unit answers at once. -/
theorem exec_cases {i : Instr} {s t : State} (h : exec i s = .next t) :
    (∃ c, t = offerDec c s) ∨ (∃ c, t = offerEnc c s) ∨
    (∃ v, t = finish .zze (some (zze v)) s) ∨ (∃ u, t = finish .zzd (some (zzd u)) s) := by
  cases i with
  | vdecU => cases h; exact .inl ⟨_, rfl⟩
  | vencU v => cases h; exact .inr (.inl ⟨_, rfl⟩)
  | zzEnc v => cases h; exact .inr (.inr (.inl ⟨_, rfl⟩))
  | zzDec u => cases h; exact .inr (.inr (.inr ⟨_, rfl⟩))
  | vdecS => cases h; exact .inl ⟨_, rfl⟩
  | vencS v => cases h; exact .inr (.inl ⟨_, rfl⟩)
  | reserved110 => cases h
  | reserved111 => cases h

end Sys2Proof.Machine
end

