-- ==== Sys2Proof/Laws/PerInstr.lean ====
section
/-!
SUPPORT. One lemma per constructor of `Instr`.
-/

/-- The word a command is encoded to holds its command code in bits 34:32 and its operand in bits 31:0 (R55, R56). -/
def Sys2Proof.Laws.EncodedFields.Statement (i : Instr) : Prop :=
  opField (encode i) = i.op ∧ dataField (encode i) = i.operand

namespace Sys2Proof.Laws.EncodedFields

theorem vdecU : Statement .vdecU := ⟨opField_append _ _, dataField_append _ _⟩
theorem vencU (v : Word) : Statement (.vencU v) := ⟨opField_append _ _, dataField_append _ _⟩
theorem zzEnc (v : Word) : Statement (.zzEnc v) := ⟨opField_append _ _, dataField_append _ _⟩
theorem zzDec (u : Word) : Statement (.zzDec u) := ⟨opField_append _ _, dataField_append _ _⟩
theorem vdecS : Statement .vdecS := ⟨opField_append _ _, dataField_append _ _⟩
theorem vencS (v : Word) : Statement (.vencS v) := ⟨opField_append _ _, dataField_append _ _⟩
theorem reserved110 : Statement .reserved110 := ⟨opField_append _ _, dataField_append _ _⟩
theorem reserved111 : Statement .reserved111 := ⟨opField_append _ _, dataField_append _ _⟩

end Sys2Proof.Laws.EncodedFields
end

