-- ==== Sys2Proof/Laws/Script.lean ====
section
/-!
SUPPORT. Writing a number in hexadecimal and reading it back, and cutting a text without separators (30_encoding.md R62).
-/

namespace Sys2Proof.Machine

/-- A hexadecimal digit reads as its value. -/
theorem digitValue_hexChar : ∀ d, d < 16 → digitValue 16 (hexChar d) = some d := by decide

/-- Digits are read from left to right. -/
theorem readDigits_append (base : Nat) (l : List Char) (acc : Nat) (m : List Char) :
    readDigits base acc (l ++ m) = (readDigits base acc l).bind fun a => readDigits base a m := by
  induction l generalizing acc with
  | nil => rfl
  | cons c cs ih => simp only [List.cons_append, readDigits]; cases digitValue base c <;> simp [ih]

/-- The low `n` hexadecimal digits of a number read as its remainder modulo `16 ^ n`. -/
theorem readDigits_hexDigits (n acc v : Nat) :
    readDigits 16 acc (hexDigits n v) = some (acc * 16 ^ n + v % 16 ^ n) := by
  induction n generalizing acc v with
  | zero => simp [hexDigits, readDigits, Nat.mod_one]
  | succ n ih =>
    rw [hexDigits, readDigits_append, ih]
    simp only [Option.bind_some, readDigits, digitValue_hexChar _ (Nat.mod_lt v (by decide : 16 > 0))]
    have h : v % 16 ^ (n + 1) = v / 16 % 16 ^ n * 16 + v % 16 := by
      rw [Nat.pow_succ', Nat.mod_mul]; omega
    rw [h, Nat.pow_succ]
    congr 1
    ring

/-- Every character written is a hexadecimal digit. -/
theorem mem_hexDigits {n v : Nat} {c : Char} (h : c ∈ hexDigits n v) : ∃ d, d < 16 ∧ c = hexChar d := by
  induction n generalizing v with
  | zero => simp [hexDigits] at h
  | succ n ih =>
    simp only [hexDigits, List.mem_append, List.mem_singleton] at h
    rcases h with h | h
    · exact ih h
    · exact ⟨_, Nat.mod_lt v (by decide), h⟩

/-- A nonempty text without separators is one piece. -/
theorem splitPieces_plain (separator : Char → Bool) (l cur : List Char) (h : ∀ c ∈ l, separator c = false)
    (hne : cur ++ l ≠ []) : splitPieces separator cur l = [cur.reverse ++ l] := by
  induction l generalizing cur with
  | nil => simp at hne; simp [splitPieces, hne]
  | cons c cs ih =>
    rw [splitPieces, if_neg (by simp [h c]), ih _ (fun d hd => h d (by simp [hd])) (by simp)]
    simp

end Sys2Proof.Machine
end

