-- ==== Sys2Proof/Laws/Step.lean ====
section
/-!
SUPPORT. What a step can do, said once, and how runs are put together.
-/

namespace Sys2Proof.Machine

theorem step_noTurn {s : State} (h : s.schedule = []) : step s = .next s := by
  simp [step, nextTurn, h]

theorem step_reset {s : State} {m : Move} {ts : List Turn} (h : s.schedule = ⟨true, m⟩ :: ts) :
    step s = .next (resetBlock { s with schedule := ts }) := by
  simp [step, nextTurn, h]

/-- A turn without reset is its move, made in the state in which the turn has begun. -/
theorem step_move {s : State} {m : Move} {ts : List Turn} (h : s.schedule = ⟨false, m⟩ :: ts) :
    step s = runMove m { s with schedule := ts } := by
  simp [step, nextTurn, h]

theorem step_src {s : State} {ts : List Turn} (h : s.schedule = srcTurn :: ts) :
    step s = .next (decStep { s with schedule := ts }) := step_move h

theorem step_snk {s : State} {ts : List Turn} (h : s.schedule = snkTurn :: ts) :
    step s = .next (encStep { s with schedule := ts }) := step_move h

/-- Everything a step can do when it answers next. -/
theorem step_cases {s t : State} (h : step s = .next t) :
    (s.schedule = [] ∧ t = s) ∨
    (∃ m ts, s.schedule = ⟨true, m⟩ :: ts ∧ t = resetBlock { s with schedule := ts }) ∨
    (∃ ts, s.schedule = requestTurn :: ts ∧
      ((s.requests = [] ∧ t = { s with schedule := ts }) ∨
        ∃ w ws, s.requests = w :: ws ∧ exec (decode w) { s with schedule := ts, requests := ws } = .next t)) ∨
    (∃ k ts, s.schedule = ⟨false, .acceptDec k⟩ :: ts ∧ t = acceptHeldDec k { s with schedule := ts }) ∨
    (∃ k ts, s.schedule = ⟨false, .acceptEnc k⟩ :: ts ∧ t = acceptHeldEnc k { s with schedule := ts }) ∨
    (∃ ts, s.schedule = srcTurn :: ts ∧ t = decStep { s with schedule := ts }) ∨
    (∃ ts, s.schedule = snkTurn :: ts ∧ t = encStep { s with schedule := ts }) ∨
    (∃ k f ts, s.schedule = ⟨false, .read k f⟩ :: ts ∧ readField k f { s with schedule := ts } = .next t) := by
  rcases hs : s.schedule with _ | ⟨⟨_ | _, m⟩, ts⟩
  · rw [step_noTurn hs] at h; cases h; exact .inl ⟨rfl, rfl⟩
  · rw [step_move hs] at h
    cases m with
    | request =>
      refine .inr (.inr (.inl ⟨ts, rfl, ?_⟩))
      rcases hr : s.requests with _ | ⟨w, ws⟩
      · simp only [runMove, nextRequest, hr] at h; cases h; exact .inl ⟨rfl, by simp⟩
      · simp only [runMove, nextRequest, hr] at h; exact .inr ⟨w, ws, rfl, h⟩
    | acceptDec k => cases h; exact .inr (.inr (.inr (.inl ⟨k, ts, rfl, rfl⟩)))
    | acceptEnc k => cases h; exact .inr (.inr (.inr (.inr (.inl ⟨k, ts, rfl, rfl⟩))))
    | srcAnswer => cases h; exact .inr (.inr (.inr (.inr (.inr (.inl ⟨ts, rfl, rfl⟩)))))
    | snkAnswer => cases h; exact .inr (.inr (.inr (.inr (.inr (.inr (.inl ⟨ts, rfl, rfl⟩))))))
    | read k f => exact .inr (.inr (.inr (.inr (.inr (.inr (.inr ⟨k, f, ts, rfl, h⟩))))))
  · rw [step_reset hs] at h; cases h; exact .inr (.inl ⟨m, ts, rfl, rfl⟩)

/-! ## Runs -/

theorem runSteps_zero (s : State) : runSteps 0 s = .next s := rfl

theorem runSteps_succ {s t : State} (n : Nat) (h : step s = .next t) : runSteps (n + 1) s = runSteps n t := by
  simp [runSteps, h]

/-- A run of `n + m` steps is a run of `n` steps and then of `m`. -/
theorem runSteps_add {s t : State} (n m : Nat) (h : runSteps n s = .next t) :
    runSteps (n + m) s = runSteps m t := by
  induction n generalizing s with
  | zero => cases h; simp
  | succ n ih =>
    rw [Nat.succ_add]
    simp only [runSteps] at h ⊢
    cases hst : step s with
    | next u => rw [hst] at h; exact ih h
    | fault r => rw [hst] at h; cases h
    | refused r => rw [hst] at h; cases h

/-- The byte step of DEC does not read or write the schedule. -/
theorem decStep_schedule (s : State) (ts : List Turn) :
    decStep { s with schedule := ts } = { decStep s with schedule := ts } := by
  unfold decStep decByte finish takeFailure State.respond State.idle State.idleDec
  dsimp only
  split
  · split
    · rfl
    · rfl
    · split
      · rfl
      · split <;> rfl
  · rfl

/-- The byte step of ENC does not read or write the schedule. -/
theorem encStep_schedule (s : State) (ts : List Turn) :
    encStep { s with schedule := ts } = { encStep s with schedule := ts } := by
  unfold encStep encAcked finish takeFailure State.respond State.idle State.idleEnc
  dsimp only
  split
  · split
    · rfl
    · rfl
    · split <;> rfl
  · rfl

/-- A run of turns of the source repeats DEC's byte step. -/
theorem runSteps_srcTurns (n : Nat) (s : State) (ts : List Turn) :
    runSteps n { s with schedule := List.replicate n srcTurn ++ ts } = .next { decStep^[n] s with schedule := ts } := by
  induction n generalizing s with
  | zero => rfl
  | succ n ih =>
    have h : step { s with schedule := List.replicate (n + 1) srcTurn ++ ts } =
        .next { decStep s with schedule := List.replicate n srcTurn ++ ts } := by
      rw [step_src (ts := List.replicate n srcTurn ++ ts) (by simp [List.replicate_succ])]
      exact congrArg _ (decStep_schedule s _)
    rw [runSteps_succ n h, ih, Function.iterate_succ_apply]

/-- A run of turns of the sink repeats ENC's byte step. -/
theorem runSteps_snkTurns (n : Nat) (s : State) (ts : List Turn) :
    runSteps n { s with schedule := List.replicate n snkTurn ++ ts } = .next { encStep^[n] s with schedule := ts } := by
  induction n generalizing s with
  | zero => rfl
  | succ n ih =>
    have h : step { s with schedule := List.replicate (n + 1) snkTurn ++ ts } =
        .next { encStep s with schedule := List.replicate n snkTurn ++ ts } := by
      rw [step_snk (ts := List.replicate n snkTurn ++ ts) (by simp [List.replicate_succ])]
      exact congrArg _ (encStep_schedule s _)
    rw [runSteps_succ n h, ih, Function.iterate_succ_apply]

/-- `runSteps` is the host's run of this machine. -/
theorem runSteps_eq_core_run (n : Nat) (s : State) : runSteps n s = Host.Core.run Sys2Proof.core n s := by
  induction n generalizing s with
  | zero => rfl
  | succ n ih =>
    cases h : step s with
    | next t =>
      have h' : Sys2Proof.core.step s = .next t := h
      simp only [runSteps, Host.Core.run, h, h']
      exact ih t
    | fault r =>
      have h' : Sys2Proof.core.step s = .fault r := h
      simp only [runSteps, Host.Core.run, h, h']
      rfl
    | refused r =>
      have h' : Sys2Proof.core.step s = .refused r := h
      simp only [runSteps, Host.Core.run, h, h']
      rfl

end Sys2Proof.Machine
end

