-- ==== Sys2Proof/Laws/Units.lean ====
section
/-!
SUPPORT. DEC and ENC share nothing (20_memory.md R42; 60_exceptions.md R85): what a byte step of one unit leaves alone, and
that it is the same step whatever the other unit's registers, streams and the responses so far hold.
-/

namespace Sys2Proof.Machine

/-- What a byte step of DEC may change; the responses it adds are DEC's. -/
theorem decStep_shape (s : State) : ∃ rs : List Response, decStep s = { s with
    decBusy := (decStep s).decBusy, decIdx := (decStep s).decIdx, decAcc := (decStep s).decAcc
    source := (decStep s).source, consumed := (decStep s).consumed
    received := s.received ++ rs.map (⟨.dec, ·⟩) } := by
  rcases decStep_cases s with ⟨a, _⟩ | ⟨e, rest, _, _, c⟩ | ⟨b, rest, _, _, _, _, c⟩ | ⟨b, rest, _, _, _, _, c⟩ |
    ⟨b, rest, _, _, _, _, c⟩
  · exact ⟨[], by simp [a]⟩
  · exact ⟨[_], by rw [c]; rfl⟩
  · exact ⟨[_], by rw [c]; rfl⟩
  · exact ⟨[], by rw [c]; simp⟩
  · exact ⟨[_], by rw [c]; rfl⟩

/-- What a byte step of ENC may change; the responses it adds are ENC's. -/
theorem encStep_shape (s : State) : ∃ rs : List Response, encStep s = { s with
    encBusy := (encStep s).encBusy, encIdx := (encStep s).encIdx, encRem := (encStep s).encRem
    sink := (encStep s).sink, offers := (encStep s).offers
    received := s.received ++ rs.map (⟨.enc, ·⟩) } := by
  rcases encStep_cases s with ⟨a, _⟩ | ⟨e, rest, _, _, c⟩ | ⟨rest, _, _, _, c⟩ | ⟨rest, _, _, _, c⟩
  · exact ⟨[], by simp [a]⟩
  · exact ⟨[_], by rw [c]; rfl⟩
  · exact ⟨[], by simp [c]⟩
  · exact ⟨[_], by rw [c]; rfl⟩

/-- DEC's byte step does not look at ENC's side. -/
theorem decStep_beside (s : State) (eb : Bool) (ei : BitVec 3) (er : Word) (snk : List SnkAnswer) (off : List Push)
    (rec rs : List Delivery) (hr : (decStep s).received = s.received ++ rs) :
    decStep { s with encBusy := eb, encIdx := ei, encRem := er, sink := snk, offers := off, received := rec } =
      { decStep s with
        encBusy := eb, encIdx := ei, encRem := er, sink := snk, offers := off, received := rec ++ rs } := by
  rcases decStep_cases s with ⟨a, h | h⟩ | ⟨e, rest, hb, hs, c⟩ | ⟨b, rest, hb, hs, hi, ho, c⟩ |
    ⟨b, rest, hb, hs, ho, hc, c⟩ | ⟨b, rest, hb, hs, ho, hc, c⟩
  · rw [a] at hr ⊢; rw [decStep_idle (by exact h)]; simp at hr; subst hr; simp
  · rw [a] at hr ⊢; rw [decStep_waits (by exact h)]; simp at hr; subst hr; simp
  · rw [c] at hr ⊢; simp at hr; subst hr; rw [decStep_fault (by exact hb) (by exact hs)]
  · rw [c] at hr ⊢; simp at hr; subst hr; rw [decStep_overflow (by exact hb) (by exact hs) (by exact hi) (by exact ho)]
  · rw [c] at hr ⊢; simp at hr; subst hr
    rw [decStep_continues (by exact hb) (by exact hs) (by exact ho) (by exact hc)]; simp
  · rw [c] at hr ⊢; simp at hr; subst hr
    rw [decStep_ends (by exact hb) (by exact hs) (by exact ho) (by exact hc)]

/-- ENC's byte step does not look at DEC's side. -/
theorem encStep_beside (s : State) (db : Bool) (di : BitVec 3) (da : Word) (ds : Bool) (src : List SrcAnswer)
    (con : List Byte) (rec rs : List Delivery) (hr : (encStep s).received = s.received ++ rs) :
    encStep { s with
      decBusy := db, decIdx := di, decAcc := da, decSigned := ds, source := src, consumed := con, received := rec } =
      { encStep s with
        decBusy := db, decIdx := di, decAcc := da, decSigned := ds, source := src, consumed := con
        received := rec ++ rs } := by
  rcases encStep_cases s with ⟨a, h | h⟩ | ⟨e, rest, hb, hs, c⟩ | ⟨rest, hb, hs, hm, c⟩ | ⟨rest, hb, hs, hm, c⟩
  · rw [a] at hr ⊢; rw [encStep_idle (by exact h)]; simp at hr; subst hr; simp
  · rw [a] at hr ⊢; rw [encStep_waits (by exact h)]; simp at hr; subst hr; simp
  · rw [c] at hr ⊢; simp at hr; subst hr; rw [encStep_fault (by exact hb) (by exact hs)]
  · rw [c] at hr ⊢; simp at hr; subst hr
    rw [encStep_continues (by exact hb) (by exact hs) (by exact hm)]; simp
  · rw [c] at hr ⊢; simp at hr; subst hr; rw [encStep_ends (by exact hb) (by exact hs) (by exact hm)]

end Sys2Proof.Machine
end

