-- ==== Sys2Proof/Laws/Wire.lean ====
section
/-!
SUPPORT. The wire format bit by bit: where a group lands in the value, what the byte pushed for a remaining value holds, and
one unfolding lemma for each whole-operation loop.
-/

namespace Sys2Proof.Machine

/-! ## Groups and bytes -/

/-- Bit `i` of a placed group is bit `i - 7k` of its byte, inside the group's seven bits (R47). -/
theorem getLsbD_placed (k : Nat) (b : Byte) (i : Nat) :
    (placed k b).getLsbD i = (decide (i < 32) && decide (7 * k ≤ i) && decide (i < 7 * k + 7) && b.getLsbD (i - 7 * k)) := by
  simp only [placed, payload, BitVec.getLsbD_shiftLeft, BitVec.getLsbD_setWidth, BitVec.getLsbD_extractLsb']
  by_cases h : i < 32 ∧ 7 * k ≤ i ∧ i < 7 * k + 7
  · obtain ⟨h1, h2, h3⟩ := h
    have h4 : ¬i < 7 * k := by omega
    have h5 : i - 7 * k < 32 := by omega
    have h6 : i - 7 * k < 7 := by omega
    simp [h1, h2, h3, h4, h5, h6]
  · by_cases h1 : i < 32
    · by_cases h2 : 7 * k ≤ i
      · have h3 : ¬i < 7 * k + 7 := by omega
        have h4 : ¬i - 7 * k < 7 := by omega
        simp [h3, h4]
      · have h3 : i < 7 * k := by omega
        simp [h2, h3]
    · simp [h1]

theorem continues_groupByte (rem : Word) : continues (groupByte rem) = moreGroups rem := by
  rw [groupByte]
  generalize moreGroups rem = c
  generalize lowGroup rem = g
  revert c g
  decide

theorem payload_groupByte (rem : Word) : payload (groupByte rem) = lowGroup rem := by
  rw [groupByte]
  generalize moreGroups rem = c
  generalize lowGroup rem = g
  revert c g
  decide

/-- The byte pushed is `0x80 OR g` while groups remain (R67, R68). -/
theorem groupByte_more {rem : Word} (h : moreGroups rem = true) :
    groupByte rem = 0x80#8 ||| (lowGroup rem).setWidth 8 := by
  rw [groupByte, h]
  generalize lowGroup rem = g
  revert g
  decide

/-- The byte pushed is `g` when no group remains (R67, R68). -/
theorem groupByte_last {rem : Word} (h : moreGroups rem = false) : groupByte rem = (lowGroup rem).setWidth 8 := by
  rw [groupByte, h]
  generalize lowGroup rem = g
  revert g
  decide

theorem moreGroups_iff (rem : Word) : moreGroups rem = true ↔ dropGroup rem ≠ 0#32 := by
  simp [moreGroups]

theorem toNat_dropGroup (rem : Word) : (dropGroup rem).toNat = rem.toNat / 128 := by
  simp [dropGroup, BitVec.toNat_ushiftRight, Nat.shiftRight_eq_div_pow]

theorem toNat_lowGroup (rem : Word) : (lowGroup rem).toNat = rem.toNat % 128 := by
  simp [lowGroup]

theorem moreGroups_iff_ge (rem : Word) : moreGroups rem = true ↔ 128 ≤ rem.toNat := by
  rw [moreGroups_iff, Ne, ← BitVec.toNat_inj, toNat_dropGroup]
  simp

/-- `encodeLoop` pushes what ENC pushes: the byte of the remaining value, then the rest while groups remain (R67,
R68). -/
theorem encodeLoop_succ (n : Nat) (rem : Word) :
    encodeLoop (n + 1) rem =
      groupByte rem :: if moreGroups rem = true then encodeLoop n (dropGroup rem) else [] := by
  rcases Bool.eq_false_or_eq_true (moreGroups rem) with h | h
  · rw [encodeLoop, if_pos ((moreGroups_iff rem).1 h), if_pos h, groupByte_more h]
  · have h' : ¬dropGroup rem ≠ 0#32 := fun hne => by simp [(moreGroups_iff rem).2 hne] at h
    rw [encodeLoop, if_neg h', if_neg (by simp [h]), groupByte_last h]

/-- The fifth byte passes the check exactly when it is 0x00 to 0x0F (R48). -/
theorem fifthOverflows_iff (b : Byte) : fifthOverflows b = true ↔ 16 ≤ b.toNat := by
  revert b; decide

theorem continues_iff (b : Byte) : continues b = true ↔ 128 ≤ b.toNat := by
  revert b; decide

/-- A byte that passes the fifth-byte check has bit 7 clear, so the fifth byte always ends a decode (R63, R66). -/
theorem not_continues_of_not_fifthOverflows {b : Byte} (h : fifthOverflows b = false) : continues b = false := by
  revert b; decide

/-- A placed group reaches no further than its own end (R47). -/
theorem placed_lt (k : Nat) (b : Byte) : (placed k b).toNat < 2 ^ (7 * (k + 1)) := by
  apply Nat.lt_pow_two_of_testBit
  intro i hi
  change (placed k b).getLsbD i = false
  rw [getLsbD_placed]
  have : ¬ i < 7 * k + 7 := by omega
  simp [this]

/-- The number a placed group stands for. -/
theorem toNat_placed (k : Nat) (b : Byte) : (placed k b).toNat = b.toNat % 128 * 2 ^ (7 * k) % 2 ^ 32 := by
  simp [placed, payload, BitVec.toNat_shiftLeft, Nat.shiftLeft_eq]

/-- The number the pushed byte stands for (R67). -/
theorem groupByte_toNat (v : Word) : (groupByte v).toNat = v.toNat % 128 + if 128 ≤ v.toNat then 128 else 0 := by
  have h1 : ∀ g : Group, (0x80#8 ||| g.setWidth 8).toNat = g.toNat + 128 := by decide
  have h2 : ∀ g : Group, ((g.setWidth 8 : Byte)).toNat = g.toNat := by decide
  rcases Bool.eq_false_or_eq_true (moreGroups v) with h | h
  · rw [groupByte_more h, h1, toNat_lowGroup, if_pos ((moreGroups_iff_ge v).1 h)]
  · have : ¬ 128 ≤ v.toNat := fun hh => by simp [(moreGroups_iff_ge v).2 hh] at h
    rw [groupByte_last h, h2, toNat_lowGroup, if_neg this]; rfl

/-- While a byte says that more follow and passes the check, the next group index is one more and at most 4 (R63). -/
theorem decIdx_succ {i : BitVec 3} {b : Byte} (hi : i.toNat ≤ 4) (ho : ¬(i = 4#3 ∧ fifthOverflows b = true))
    (hc : continues b = true) : (i + 1#3).toNat = i.toNat + 1 ∧ i.toNat ≤ 3 := by
  have h4 : i.toNat ≠ 4 := by
    intro e
    have h : i = 4#3 := BitVec.eq_of_toNat_eq (by simp [e])
    have hb : fifthOverflows b = false := by simpa [h] using ho
    simp [not_continues_of_not_fifthOverflows hb] at hc
  have h1 : (i + 1#3).toNat = (i.toNat + 1) % 8 := by simp [BitVec.toNat_add]
  omega

end Sys2Proof.Machine
end

