-- ==== Sys2Proof/Tests/Slice0.lean ====
section
/-!
SUPPORT. The model's own tests. Expected values come from the spec: the encodings of 30_encoding.md R55 to R57 written out
bit by bit, the vectors and cases of 95_test_vectors.md (named by section and row), and its source examples S1 to S13. After
them, for every obligation with hypotheses, concrete inputs that meet them.
-/

namespace Sys2Proof.Tests

open Sys2Proof Sys2Proof.Machine

/-! ## Helpers -/

/-- The next state of an outcome. -/
def nextOf : Result → Option State
  | .next s => some s
  | .fault _ => none
  | .refused _ => none

/-- DEC in flight after the bytes before group `i`, the source about to give `answers`. -/
def decoding (i : BitVec 3) (acc : Word) (signed : Bool) (answers : List SrcAnswer) : State :=
  { State.reset with
    decBusy := true, decIdx := i, decAcc := acc, decSigned := signed, source := answers, schedule := [srcTurn] }

/-- ENC in flight at group `i`, the sink about to give `answers`. -/
def encoding (i : BitVec 3) (rem : Word) (answers : List SnkAnswer) : State :=
  { State.reset with encBusy := true, encIdx := i, encRem := rem, sink := answers, schedule := [snkTurn] }

/-- The block just after reset, the requester about to offer `ws`, one turn each. -/
def offering (ws : List CommandWord) : State :=
  { State.reset with requests := ws, schedule := ws.map fun _ => requestTurn }

/-- The same with any schedule. -/
def scheduled (turns : List Turn) : State := { State.reset with schedule := turns }

/-- A fault value; which one is open, so nothing here depends on it. -/
def eos : FaultValue := .named 0

/-- Source answers that are all bytes. -/
def bytes (bs : List Byte) : List SrcAnswer := bs.map .byte

/-! ## Parameters (00_scope.md R9) -/

theorem test_group_count : (Config.valueBits + Config.groupBits - 1) / Config.groupBits = Config.maxBytes := by decide
theorem test_last_bits : Config.valueBits - (Config.maxBytes - 1) * Config.groupBits = Config.lastBits := by decide
theorem test_mask5 : Config.mask5 = 0xFF#8 &&& ~~~(0x0F#8) := by decide

/-! ## WellFormed -/

theorem test_reserved110_ill_formed : Instr.reserved110.wellFormed = false := by decide
theorem test_reserved111_ill_formed : Instr.reserved111.wellFormed = false := by decide

/-! ## Decoding: `op` in bits 34:32, `data` in bits 31:0 (R55, R56) -/

theorem test_decode_vdecU : decode 0b000_00000000000000000000000000000000#35 = .vdecU := by decide
theorem test_decode_vencU : decode 0b001_00000000000000000000000100101100#35 = .vencU 300#32 := by decide
theorem test_decode_zzEnc : decode 0b010_11111111111111111111111110111111#35 = .zzEnc (-65#32) := by decide
theorem test_decode_zzDec : decode 0b011_00000000000000000000000010000001#35 = .zzDec 0x81#32 := by decide
theorem test_decode_vdecS : decode 0b100_10000000000000000000000000000001#35 = .vdecS := by decide
theorem test_decode_vencS : decode 0b101_10000000000000000000000000000000#35 = .vencS 0x80000000#32 := by decide
theorem test_decode_reserved110 : decode 0b110_00000000000000000000000000000000#35 = .reserved110 := by decide
theorem test_decode_reserved111 : decode 0b111_11111111111111111111111111111111#35 = .reserved111 := by decide
theorem test_decode_table_word : decodeTableWord 40 0x10000012C = some (.vencU 300#32) := by decide
theorem test_decode_no_command_word : decodeTableWord 40 0x800000000 = none := by decide

/-! ## Whole operations (95_test_vectors.md) -/

/-- Section 2.1, at each length and at the ends of the range. -/
theorem test_encodeU_vectors :
    [0#32, 127#32, 128#32, 300#32, 16384#32, 624485#32, 0x0FFFFFFF#32, 0x10000000#32, 0x80000000#32,
      0xFFFFFFFF#32].map encodeU =
    [[0x00#8], [0x7F#8], [0x80#8, 0x01#8], [0xAC#8, 0x02#8], [0x80#8, 0x80#8, 0x01#8], [0xE5#8, 0x8E#8, 0x26#8],
      [0xFF#8, 0xFF#8, 0xFF#8, 0x7F#8], [0x80#8, 0x80#8, 0x80#8, 0x80#8, 0x01#8],
      [0x80#8, 0x80#8, 0x80#8, 0x80#8, 0x08#8], [0xFF#8, 0xFF#8, 0xFF#8, 0xFF#8, 0x0F#8]] := by decide

/-- Section 2.2: accepted values, minimal and not. -/
theorem test_decodeU_accepts :
    [bytes [0x00#8], bytes [0xAC#8, 0x02#8], bytes [0xE5#8, 0x8E#8, 0x26#8], bytes [0x80#8, 0x00#8],
      bytes [0x01#8, 0x02#8], bytes [0x81#8, 0x80#8, 0x80#8, 0x80#8, 0x01#8],
      bytes [0x80#8, 0x80#8, 0x80#8, 0x80#8, 0x0F#8]].map decodeU =
    [some ⟨.ok 0#32, 1⟩, some ⟨.ok 300#32, 2⟩, some ⟨.ok 624485#32, 3⟩, some ⟨.ok 0#32, 2⟩, some ⟨.ok 1#32, 1⟩,
      some ⟨.ok 0x10000001#32, 5⟩, some ⟨.ok 0xF0000000#32, 5⟩] := by decide

/-- Section 2.2: overflow, also for bit 7 alone (C1, D6), and source faults. -/
theorem test_decodeU_fails :
    [bytes [0xFF#8, 0xFF#8, 0xFF#8, 0xFF#8, 0x10#8], bytes [0x80#8, 0x80#8, 0x80#8, 0x80#8, 0x80#8, 0x01#8],
      bytes [0x80#8, 0x80#8, 0x80#8, 0x80#8, 0x8F#8], [.fault eos], bytes [0x80#8, 0x80#8] ++ [.fault eos],
      bytes [0xFF#8, 0xFF#8, 0xFF#8, 0xFF#8] ++ [.fault eos], bytes [0x80#8]].map decodeU =
    [some ⟨.overflow, 5⟩, some ⟨.overflow, 5⟩, some ⟨.overflow, 5⟩, some ⟨.srcFault eos, 0⟩, some ⟨.srcFault eos, 2⟩,
      some ⟨.srcFault eos, 4⟩, none] := rfl

/-- Section 2.3. -/
theorem test_zze_vectors :
    [0#32, -1#32, 1#32, -64#32, 64#32, -65#32, -1000#32, 0x40000000#32, 0x7FFFFFFF#32, 0x80000000#32].map zze =
    [0#32, 1#32, 2#32, 0x7F#32, 0x80#32, 0x81#32, 0x7CF#32, 0x80000000#32, 0xFFFFFFFE#32, 0xFFFFFFFF#32] := by decide

/-- Section 2.3, the second table. -/
theorem test_zzd_vectors :
    [0#32, 1#32, 0x7F#32, 0x80#32, 0x7FFFFFFF#32, 0x80000000#32, 0x55555555#32, 0xAAAAAAAA#32, 0xFFFFFFFE#32,
      0xFFFFFFFF#32].map zzd =
    [0#32, 0xFFFFFFFF#32, 0xFFFFFFC0#32, 0x40#32, 0xC0000000#32, 0x40000000#32, 0xD5555555#32, 0x55555555#32,
      0x7FFFFFFF#32, 0x80000000#32] := by decide

/-- Section 2.5, row 1: the pushes, the outcome, and the bytes in the sink. -/
theorem test_pushAll_fault :
    pushAll (encodeU 0x12345678#32) [.ack, .ack, .fault eos] =
      some ⟨.sinkFault eos, [⟨0xF8#8, .ack⟩, ⟨0xAC#8, .ack⟩, ⟨0xD1#8, .fault eos⟩]⟩ := rfl

/-! ## Steps -/

/-- Section 2.2: the last byte of `AC 02`. -/
theorem test_vdecU_last_byte :
    (nextOf (step (decoding 1#3 0x2C#32 false (bytes [0x02#8])))).map (fun t => (t.received, t.decBusy)) =
      some ([⟨.dec, ⟨.ok, some 300#32, none⟩⟩], false) := by decide

/-- Section 2.2: `80 80 80 80 80` overflows and consumes the fifth byte. -/
theorem test_vdecU_overflow :
    (nextOf (step (decoding 4#3 0#32 false (bytes [0x80#8, 0x01#8])))).map (fun t => (t.received, t.consumed, t.source)) =
      some ([⟨.dec, ⟨.overflow, none, none⟩⟩], [0x80#8], bytes [0x01#8]) := by decide

/-- Section 3: step 1 of VENC_U 624485. -/
theorem test_vencU_first_byte :
    (nextOf (step (encoding 0#3 0x98765#32 [.ack]))).map (fun t => (t.offers, t.encRem, t.encIdx, t.encBusy)) =
      some ([⟨0xE5#8, .ack⟩], 0x130E#32, 1#3, true) := by decide

/-- Section 3: step 3 of VENC_U 624485. -/
theorem test_vencU_last_byte :
    (nextOf (step (encoding 2#3 0x26#32 [.ack]))).map (fun t => (t.offers, t.received, t.encBusy)) =
      some ([⟨0x26#8, .ack⟩], [⟨.enc, ⟨.ok, none, none⟩⟩], false) := by decide

/-- P4, command 3. -/
theorem test_zzEnc_word :
    (nextOf (step (State.reset.withFetchWord 40 0x200000040))).map (·.received) =
      some [⟨.zze, ⟨.ok, some 0x80#32, none⟩⟩] := by decide

/-- P4, command 4. -/
theorem test_zzDec_word :
    (nextOf (step (State.reset.withFetchWord 40 0x300000081))).map (·.received) =
      some [⟨.zzd, ⟨.ok, some 0xFFFFFFBF#32, none⟩⟩] := by decide

/-- P2, command 5: the last byte of `81 01`. -/
theorem test_vdecS_last_byte :
    (nextOf (step (decoding 1#3 1#32 true (bytes [0x01#8])))).map (·.received) =
      some [⟨.dec, ⟨.ok, some 0xFFFFFFBF#32, none⟩⟩] := by decide

/-- P1, command 3. -/
theorem test_vencS_accepts_the_image :
    (nextOf (step (State.reset.withFetchWord 40 0x580000000))).map (fun t => (t.encBusy, t.encRem)) =
      some (true, 0xFFFFFFFF#32) := by decide

/-- Section 2.5, row 6: reset in a turn of the source. -/
theorem test_reset_mid_decode :
    (nextOf (step { decoding 2#3 0#32 false (bytes [0x01#8]) with
      consumed := [0x80#8, 0x80#8], schedule := [⟨true, .srcAnswer⟩] })).map
      (fun t => (t.decBusy, t.consumed, t.source, t.received)) =
      some (false, [0x80#8, 0x80#8], bytes [0x01#8], []) := by decide

/-- Section 2.5, row 8: `6:00000000`. -/
theorem test_reserved_word :
    step (State.reset.withFetchWord 40 0x600000000) = .refused (.reservedCode 0b110#3) := rfl

/-! ## Scripts (R62): lines of 95_test_vectors.md section 4 -/

theorem test_script_lines :
    assemble "VENC_U 300\nVENC_S -1 ; P1, line 2\nVDEC_U\nZZ_DEC 0x81".toList =
      .ok [0x10000012C#35, 0x5FFFFFFFF#35, 0x000000000#35, 0x300000081#35] := by decide
theorem test_script_no_pseudo_command : assemble "NOP".toList = .error .unknownMnemonic := by decide
theorem test_script_signed_range : assemble "VENC_S 2147483648".toList = .error .outOfRange := by decide
theorem test_show_word : showWord 0x10000012C#35 = "1:0000012C".toList := by decide

/-! ## Inputs that meet the hypotheses of the obligations, clause by clause, at the ends of each clause's range -/

theorem test_witness_DecodeCommandsIgnoreTheirData :
    (scheduled [requestTurn]).schedule = requestTurn :: [] := rfl

theorem test_witness_StepRunsTheDecodedCommand :
    (offering [0x10000012C#35]).schedule = requestTurn :: [] ∧ (offering [0x10000012C#35]).requests = 0x10000012C#35 :: [] ∧
    (scheduled [requestTurn]).schedule = requestTurn :: [] ∧ (scheduled [requestTurn]).requests = [] := by decide

theorem test_witness_FetchedWordIsRunNext :
    decodeTableWord 40 0x10000012C = some (.vencU 300#32) ∧ decodeTableWord 40 0x7FFFFFFFF = some .reserved111 ∧
    decodeTableWord 40 0 = some .vdecU := by decide

theorem test_witness_ScriptLinesAssembleToTheirWords :
    scriptLine .vdecU = some "VDEC_U".toList ∧ scriptLine (.vencS 0x80000000#32) = some "VENC_S -0x80000000".toList ∧
    scriptLine (.zzDec 0xFFFFFFFF#32) = some "ZZ_DEC 0xFFFFFFFF".toList := by decide

/-- The acceptance clauses of VdecUReadsByteByByte, VencUWritesByteByByte, VdecSReadsByteByByte and
VencSWritesTheZigzagImage. -/
theorem test_witness_acceptance : State.reset.decBusy = false ∧ State.reset.encBusy = false := by decide

/-- VdecUReadsByteByByte and VdecSReadsByteByByte: a source fault. -/
theorem test_witness_decode_fault : let s := decoding 4#3 0#32 true [.fault eos]
    s.decBusy = true ∧ s.decSigned = true ∧ s.schedule = srcTurn :: [] ∧ s.source = .fault eos :: [] :=
  ⟨rfl, rfl, rfl, rfl⟩

/-- The same: overflow by the lowest byte that overflows, and by the highest. -/
theorem test_witness_decode_overflow :
    (let s := decoding 4#3 0#32 false (bytes [0x10#8])
     s.decBusy = true ∧ s.schedule = srcTurn :: [] ∧ s.source = .byte 0x10#8 :: [] ∧ s.decIdx = 4#3 ∧
       0x10#8 &&& 0xF0#8 ≠ 0#8) ∧
    (let s := decoding 4#3 0#32 true (bytes [0xFF#8])
     s.decBusy = true ∧ s.decSigned = true ∧ s.schedule = srcTurn :: [] ∧ s.source = .byte 0xFF#8 :: [] ∧
       s.decIdx = 4#3 ∧ 0xFF#8 &&& 0xF0#8 ≠ 0#8) := by decide

/-- The same: another byte follows, at group index 0 and at group index 3. -/
theorem test_witness_decode_continues :
    (let s := decoding 0#3 0#32 false (bytes [0x80#8])
     s.decBusy = true ∧ s.schedule = srcTurn :: [] ∧ s.source = .byte 0x80#8 :: [] ∧
       ¬(s.decIdx = 4#3 ∧ 0x80#8 &&& 0xF0#8 ≠ 0#8) ∧ (0x80#8).getLsbD 7 = true) ∧
    (let s := decoding 3#3 0x1FFFFF#32 true (bytes [0xFF#8])
     s.decBusy = true ∧ s.decSigned = true ∧ s.schedule = srcTurn :: [] ∧ s.source = .byte 0xFF#8 :: [] ∧
       ¬(s.decIdx = 4#3 ∧ 0xFF#8 &&& 0xF0#8 ≠ 0#8) ∧ (0xFF#8).getLsbD 7 = true) := by decide

/-- The same: the last byte, unsigned at the highest fifth byte, signed at the highest first byte. -/
theorem test_witness_decode_ends :
    (let s := decoding 4#3 0x0FFFFFFF#32 false (bytes [0x0F#8])
     s.decBusy = true ∧ s.schedule = srcTurn :: [] ∧ s.source = .byte 0x0F#8 :: [] ∧
       ¬(s.decIdx = 4#3 ∧ 0x0F#8 &&& 0xF0#8 ≠ 0#8) ∧ (0x0F#8).getLsbD 7 = false ∧ s.decSigned = false) ∧
    (let s := decoding 0#3 0#32 true (bytes [0x7F#8])
     s.decBusy = true ∧ s.schedule = srcTurn :: [] ∧ s.source = .byte 0x7F#8 :: [] ∧
       ¬(s.decIdx = 4#3 ∧ 0x7F#8 &&& 0xF0#8 ≠ 0#8) ∧ (0x7F#8).getLsbD 7 = false ∧ s.decSigned = true ∧
       0x7F#32 = s.decAcc ||| (((0x7F#8).extractLsb' 0 7).setWidth 32 <<< (7 * s.decIdx.toNat))) := by decide

/-- VencUWritesByteByByte, VencSWritesTheZigzagImage: a sink fault; the last byte, of a value up to 127; more to follow, from
128 on. -/
theorem test_witness_encode :
    (let s := encoding 4#3 0x0F#32 [.fault eos]
     s.encBusy = true ∧ s.schedule = snkTurn :: [] ∧ s.sink = .fault eos :: []) ∧
    (let s := encoding 0#3 127#32 [.ack]
     s.encBusy = true ∧ s.schedule = snkTurn :: [] ∧ s.sink = .ack :: [] ∧ s.encRem >>> 7 = 0#32) ∧
    (let s := encoding 0#3 128#32 [.ack]
     s.encBusy = true ∧ s.schedule = snkTurn :: [] ∧ s.sink = .ack :: [] ∧ s.encRem >>> 7 ≠ 0#32) :=
  ⟨⟨rfl, rfl, rfl⟩, ⟨rfl, rfl, rfl, rfl⟩, ⟨rfl, rfl, rfl, by decide⟩⟩

theorem test_witness_ReservedCodesAreRefused :
    (let s := offering [0b110#3 ++ 0#32]
     s.schedule = requestTurn :: [] ∧ s.requests = (0b110#3 ++ 0#32 : CommandWord) :: []) ∧
    (let s := offering [0b111#3 ++ 0xFFFFFFFF#32]
     s.schedule = requestTurn :: [] ∧ s.requests = (0b111#3 ++ 0xFFFFFFFF#32 : CommandWord) :: []) := by decide

theorem test_witness_EveryCommandIsAvailableInEveryState : (Instr.vencS 0x80000000#32).wellFormed = true := by decide

theorem test_witness_BusyUnitHoldsTheRequest :
    (decoding 0#3 0#32 false []).decBusy = true ∧ (encoding 0#3 5#32 []).encBusy = true := by decide

/-- A decode held behind another, and an encode held behind another: the second held request first. -/
theorem test_witness_HeldRequestIsAcceptedWhenIdle :
    (let s := { scheduled [⟨false, .acceptDec 1⟩] with decHeld := [.vdecU, .vdecS] }
     s.schedule = ⟨false, .acceptDec 1⟩ :: [] ∧ s.decBusy = false ∧ s.decHeld[1]? = some .vdecS) ∧
    (let s := { scheduled [⟨false, .acceptDec 0⟩] with decHeld := [.vdecU] }
     s.schedule = ⟨false, .acceptDec 0⟩ :: [] ∧ s.decBusy = false ∧ s.decHeld[0]? = some .vdecU) ∧
    (let s := { decoding 0#3 0#32 false [] with schedule := [⟨false, .acceptDec 0⟩] }
     s.schedule = ⟨false, .acceptDec 0⟩ :: [] ∧ s.decBusy = true) ∧
    (let s := { scheduled [⟨false, .acceptEnc 1⟩] with encHeld := [.vencU 1#32, .vencS 2#32] }
     s.schedule = ⟨false, .acceptEnc 1⟩ :: [] ∧ s.encBusy = false ∧ s.encHeld[1]? = some (.vencS 2#32)) ∧
    (let s := { scheduled [⟨false, .acceptEnc 0⟩] with encHeld := [.vencU 1#32] }
     s.schedule = ⟨false, .acceptEnc 0⟩ :: [] ∧ s.encBusy = false ∧ s.encHeld[0]? = some (.vencU 1#32)) ∧
    (let s := { encoding 0#3 5#32 [] with schedule := [⟨false, .acceptEnc 0⟩] }
     s.schedule = ⟨false, .acceptEnc 0⟩ :: [] ∧ s.encBusy = true) := by decide

theorem test_witness_IdleUnitTakesNoByteStep :
    (let s := { scheduled [srcTurn] with source := bytes [0x01#8] }
     s.decBusy = false ∧ s.schedule = srcTurn :: []) ∧
    (let s := { scheduled [snkTurn] with sink := [.ack] }
     s.encBusy = false ∧ s.schedule = snkTurn :: []) := by decide

/-- DEC waits while ENC is offered a command; ENC waits while ZZD answers (95_test_vectors.md section 2.5, rows 4, 5). -/
theorem test_witness_UnansweredUnitWaitsForEver :
    (let s := { decoding 2#3 5#32 false [] with requests := [0x100000005#35], schedule := [srcTurn, requestTurn] }
     (∀ turn ∈ s.schedule, turn.reset = false) ∧ (∃ t, runSteps 2 s = .next t) ∧ s.decBusy = true ∧ s.source = []) ∧
    (let s := { encoding 0#3 5#32 [] with requests := [0x300000003#35], schedule := [snkTurn, requestTurn] }
     (∀ turn ∈ s.schedule, turn.reset = false) ∧ (∃ t, runSteps 2 s = .next t) ∧ s.encBusy = true ∧ s.sink = []) :=
  ⟨⟨by decide, ⟨_, rfl⟩, rfl, rfl⟩, ⟨by decide, ⟨_, rfl⟩, rfl, rfl⟩⟩

/-- One pull, five pulls, and a fault at the sixth answer that is never asked for. -/
theorem test_witness_DecodeRunComputesDecodeU :
    State.reset.decBusy = false ∧ decodeU (bytes [0x7F#8]) = some ⟨.ok 127#32, 1⟩ ∧
    decodeU (bytes [0xFF#8, 0xFF#8, 0xFF#8, 0xFF#8, 0x0F#8] ++ [.fault eos]) = some ⟨.ok 0xFFFFFFFF#32, 5⟩ ∧
    decodeU (bytes [0x80#8, 0x80#8, 0x80#8, 0x80#8, 0x80#8]) = some ⟨.overflow, 5⟩ ∧
    decodeU [.fault eos] = some ⟨.srcFault eos, 0⟩ := ⟨rfl, rfl, rfl, rfl, rfl⟩

/-- A VDEC_U of five bytes, in flight after four turns and ended after five; and a VDEC_S that ends at once with a source
fault. -/
theorem test_witness_DecodeConsumesOneBytePerGroup :
    (let s := { State.reset with source := bytes [0xFF#8, 0xFF#8, 0xFF#8, 0xFF#8, 0x0F#8] }
     s.decBusy = false ∧ ∃ t u v, exec .vdecU s = .next t ∧
       runSteps 4 { t with schedule := List.replicate 4 srcTurn } = .next u ∧ u.decBusy = true ∧
       runSteps 5 { t with schedule := List.replicate 5 srcTurn } = .next v ∧ v.decBusy = false) ∧
    (let s := { State.reset with source := [.fault eos] }
     s.decBusy = false ∧ ∃ t u, exec .vdecS s = .next t ∧
       runSteps 1 { t with schedule := List.replicate 1 srcTurn } = .next u ∧ u.decBusy = false) :=
  ⟨⟨rfl, _, _, _, rfl, rfl, rfl, rfl, rfl⟩, ⟨rfl, _, _, rfl, rfl, rfl⟩⟩

/-- Shortest, longest and non-minimal well-formed encoded values, and the malformed pattern at both ends; for
DecoderAcceptsExactlyTheWellFormed, AcceptedValueIsAssembledFromItsGroups, EncoderEmitsTheOneCanonicalEncoding and
UnsignedRoundTrip. -/
theorem test_witness_encoded_values :
    wellFormedEncoding [0x00#8] = true ∧ wellFormedEncoding [0x80#8, 0x80#8, 0x80#8, 0x80#8, 0x0F#8] = true ∧
    wellFormedEncoding [0x80#8, 0x00#8] = true ∧
    malformedEncoding [0x80#8, 0x80#8, 0x80#8, 0x80#8, 0x10#8] = true ∧
    malformedEncoding [0xFF#8, 0xFF#8, 0xFF#8, 0xFF#8, 0xFF#8] = true ∧
    wellFormedEncoding [0x80#8, 0x01#8] = true ∧ [0x80#8, 0x01#8].getLast? ≠ some 0#8 := by decide

/-- One byte, and four bytes: the longest that can be put off. -/
theorem test_witness_NonMinimalEncodingsAreAccepted :
    ([] : List Byte).length < 4 ∧ wellFormedEncoding ([] ++ [0x7F#8]) = true ∧
    [0x80#8, 0x80#8, 0x80#8].length < 4 ∧ wellFormedEncoding ([0x80#8, 0x80#8, 0x80#8] ++ [0x7F#8]) = true := by decide

/-- Both clauses of EncodeRunPushesEncodeU: all five bytes acknowledged, and a fault at the third. -/
theorem test_witness_EncodeRunPushesEncodeU :
    State.reset.encBusy = false ∧
    (pushAll (encodeU 0xFFFFFFFF#32) [.ack, .ack, .ack, .ack, .ack]).map (·.outcome) = some .ok ∧
    (pushAll (encodeU (zze 0x12345678#32)) [.ack, .ack, .fault eos]).map (·.outcome) = some (.sinkFault eos) :=
  ⟨rfl, rfl, rfl⟩

/-- Both ends of each range of CanonicalLengthByRange. -/
theorem test_witness_CanonicalLengthByRange :
    (0#32).toNat ≤ 127 ∧ (127#32).toNat ≤ 127 ∧ 128 ≤ (128#32).toNat ∧ (16383#32).toNat ≤ 16383 ∧
    16384 ≤ (16384#32).toNat ∧ (2097151#32).toNat ≤ 2097151 ∧ 2097152 ≤ (2097152#32).toNat ∧
    (268435455#32).toNat ≤ 268435455 ∧ 268435456 ≤ (268435456#32).toNat ∧ 268435456 ≤ (0xFFFFFFFF#32).toNat := by decide

/-- A fault at the first push and one after two acknowledged bytes. -/
theorem test_witness_SinkFaultLeavesADanglingPrefix :
    pushAll (encodeU 0#32) [.fault eos] = some ⟨.sinkFault eos, [⟨0x00#8, .fault eos⟩]⟩ ∧
    pushAll (encodeU 0x12345678#32) [.ack, .ack, .fault eos] =
      some ⟨.sinkFault eos, [⟨0xF8#8, .ack⟩, ⟨0xAC#8, .ack⟩, ⟨0xD1#8, .fault eos⟩]⟩ := ⟨rfl, rfl⟩

/-- Both signs, at their ends. -/
theorem test_witness_ZigzagIsABijectionWithItsClosedForm :
    0 ≤ s32 0#32 ∧ 0 ≤ s32 0x7FFFFFFF#32 ∧ s32 (-1#32) < 0 ∧ s32 0x80000000#32 < 0 := by decide

theorem test_witness_SignedCommandsAreCompositions :
    State.reset.encBusy = false ∧ State.reset.decBusy = false ∧
    (∃ t, exec .vdecU State.reset = .next t) ∧ ∃ t, exec .vdecS State.reset = .next t :=
  ⟨rfl, rfl, ⟨_, rfl⟩, ⟨_, rfl⟩⟩

/-- A one-byte value and a five-byte one. -/
theorem test_witness_SignedLoopbackRecoversTheValue :
    State.reset.encBusy = false ∧ State.reset.decBusy = false ∧
    [.ack] = List.replicate (encodeU (zze 0#32)).length SnkAnswer.ack ++ [] ∧
    [.ack, .ack, .ack, .ack, .ack] = List.replicate (encodeU (zze 0x80000000#32)).length SnkAnswer.ack ++ [] := by decide

theorem test_witness_ResetTakesPriorityOverEveryMove :
    (scheduled [⟨true, .srcAnswer⟩]).schedule = ⟨true, .srcAnswer⟩ :: [] := rfl

/-- The last continuing byte of DEC and of ENC, from states that meet the invariant with the registers at their ends. -/
theorem test_witness_StepKeepsGroupIndicesLegal :
    (let s := decoding 3#3 0x1FFFFF#32 false (bytes [0xFF#8]); s.Inv ∧ ∃ t, step s = .next t) ∧
    (let s := encoding 3#3 0x7FF#32 [.ack]; s.Inv ∧ ∃ t, step s = .next t) :=
  ⟨⟨by unfold State.Inv; decide, _, rfl⟩, ⟨by unfold State.Inv; decide, _, rfl⟩⟩

theorem test_witness_StepKeepsResponsesShaped :
    let s := { encoding 0#3 0#32 [.fault eos] with received := [⟨.dec, ⟨.ok, some 1#32, none⟩⟩] }
    s.responsesShaped ∧ ∃ t, step s = .next t :=
  ⟨by unfold State.responsesShaped; decide, _, rfl⟩

/-- A turn that ends a decode, one that ends an encode, and one with reset. -/
theorem test_witness_EachOperationGetsOneResponse :
    (let s := decoding 0#3 0#32 false (bytes [0x01#8])
     s.schedule = srcTurn :: [] ∧ (nextOf (step s)).isSome = true ∧ srcTurn.reset = false) ∧
    (let s := encoding 0#3 0#32 [.ack]
     s.schedule = snkTurn :: [] ∧ (nextOf (step s)).isSome = true ∧ snkTurn.reset = false) ∧
    (let s := { decoding 0#3 0#32 false [] with schedule := [⟨true, .srcAnswer⟩] }
     s.schedule = ⟨true, .srcAnswer⟩ :: [] ∧ (nextOf (step s)).isSome = true) := by decide

/-- For NoTransferIsEverUndone and ByteStepsTouchOnlyTheirUnit. -/
theorem test_witness_byte_steps :
    (let s := decoding 4#3 0#32 false (bytes [0x80#8, 0x01#8])
     s.schedule = srcTurn :: [] ∧ (nextOf (step s)).isSome = true) ∧
    (let s := encoding 0#3 300#32 [.ack]
     s.schedule = snkTurn :: [] ∧ (nextOf (step s)).isSome = true) := by decide

/-- A requester that has received `r` from DEC and is about to read `f` of it. -/
def reading (f : ResponseField) (r : Response) : State :=
  { State.reset with received := [⟨.dec, r⟩], schedule := [⟨false, .read 0 f⟩] }

/-- Each clause: a response not there (the first place after the last); the status; and `data` and `err`, absent and
present. -/
theorem test_witness_AbsentFieldsCannotBeRead :
    (let s := scheduled [⟨false, .read 0 .data⟩]
     s.schedule = ⟨false, .read 0 .data⟩ :: [] ∧ s.received.length ≤ 0) ∧
    (∀ st, let s := reading .status ⟨st, none, none⟩
     s.schedule = ⟨false, .read 0 .status⟩ :: [] ∧ s.received[0]? = some ⟨.dec, ⟨st, none, none⟩⟩) ∧
    (let s := reading .data ⟨.overflow, none, none⟩
     s.schedule = ⟨false, .read 0 .data⟩ :: [] ∧ s.received[0]? = some ⟨.dec, ⟨.overflow, none, none⟩⟩) ∧
    (let s := reading .err ⟨.ok, some 2#32, none⟩
     s.schedule = ⟨false, .read 0 .err⟩ :: [] ∧ s.received[0]? = some ⟨.dec, ⟨.ok, some 2#32, none⟩⟩) ∧
    (let s := reading .data ⟨.ok, some 2#32, none⟩
     s.schedule = ⟨false, .read 0 .data⟩ :: [] ∧ s.received[0]? = some ⟨.dec, ⟨.ok, some 2#32, none⟩⟩) ∧
    (let s := reading .err ⟨.srcFault, none, some eos⟩
     s.schedule = ⟨false, .read 0 .err⟩ :: [] ∧ s.received[0]? = some ⟨.dec, ⟨.srcFault, none, some eos⟩⟩) :=
  ⟨⟨rfl, by decide⟩, fun _ => ⟨rfl, rfl⟩, ⟨rfl, rfl⟩, ⟨rfl, rfl⟩, ⟨rfl, rfl⟩, ⟨rfl, rfl⟩⟩

end Sys2Proof.Tests
end

section
/-!
Renaming the fault values of a state (00_scope.md R10; 60_exceptions.md R79) commutes with every shared operation, hence with
every move, every step and every run. One lemma per operation, in the order of the model's definitions.
-/

namespace Sys2Proof.Machine

section

variable (f : FaultValue → FaultValue)

/-! ## What renaming leaves alone, and what it maps -/

@[simp] theorem rename_decBusy (s : State) : (s.rename f).decBusy = s.decBusy := rfl
@[simp] theorem rename_encBusy (s : State) : (s.rename f).encBusy = s.encBusy := rfl
@[simp] theorem rename_decHeld (s : State) : (s.rename f).decHeld = s.decHeld := rfl
@[simp] theorem rename_encHeld (s : State) : (s.rename f).encHeld = s.encHeld := rfl
@[simp] theorem rename_requests (s : State) : (s.rename f).requests = s.requests := rfl
@[simp] theorem rename_received (s : State) : (s.rename f).received = s.received.map (Delivery.rename f) := rfl
@[simp] theorem rename_source (s : State) : (s.rename f).source = s.source.map (SrcAnswer.rename f) := rfl
@[simp] theorem rename_sink (s : State) : (s.rename f).sink = s.sink.map (SnkAnswer.rename f) := rfl

@[simp] theorem rename_delivery (u : UnitName) (st : Status) (d : Option Word) (e : Option FaultValue) :
    Delivery.rename f ⟨u, ⟨st, d, e⟩⟩ = ⟨u, ⟨st, d, e.map f⟩⟩ := rfl
@[simp] theorem rename_push_ack (b : Byte) : Push.rename f ⟨b, .ack⟩ = ⟨b, .ack⟩ := rfl
@[simp] theorem rename_push_fault (b : Byte) (e : FaultValue) :
    Push.rename f ⟨b, .fault e⟩ = ⟨b, .fault (f e)⟩ := rfl

theorem rename_source_byte {s : State} {b : Byte} {rest : List SrcAnswer} (hs : s.source = .byte b :: rest) :
    (s.rename f).source = .byte b :: rest.map (SrcAnswer.rename f) := by
  rw [rename_source, hs]; rfl

theorem rename_source_fault {s : State} {e : FaultValue} {rest : List SrcAnswer} (hs : s.source = .fault e :: rest) :
    (s.rename f).source = .fault (f e) :: rest.map (SrcAnswer.rename f) := by
  rw [rename_source, hs]; rfl

theorem rename_sink_ack {s : State} {rest : List SnkAnswer} (hs : s.sink = .ack :: rest) :
    (s.rename f).sink = .ack :: rest.map (SnkAnswer.rename f) := by
  rw [rename_sink, hs]; rfl

theorem rename_sink_fault {s : State} {e : FaultValue} {rest : List SnkAnswer} (hs : s.sink = .fault e :: rest) :
    (s.rename f).sink = .fault (f e) :: rest.map (SnkAnswer.rename f) := by
  rw [rename_sink, hs]; rfl

/-- Reading a field of a renamed response gives the renamed value: a read never looks inside a fault value. -/
theorem read_rename (r : Response) (fld : ResponseField) :
    (r.rename f).read fld = (r.read fld).map (FieldValue.rename f) := by
  obtain ⟨st, data, err⟩ := r
  cases fld with
  | status => rfl
  | data => cases data <;> rfl
  | err => cases err <;> rfl

/-! ## The shared operations -/

theorem rename_respond (u : UnitName) (r : Response) (s : State) :
    (s.respond u r).rename f = (s.rename f).respond u (r.rename f) := by
  simp [State.respond, State.rename, Delivery.rename]

theorem rename_idle (u : UnitName) (s : State) : (s.idle u).rename f = (s.rename f).idle u := by
  cases u <;> rfl

theorem rename_finish (u : UnitName) (d : Option Word) (s : State) :
    (finish u d s).rename f = finish u d (s.rename f) := by
  rw [finish, rename_respond, rename_idle]; rfl

theorem rename_offerDec (c : DecRequest) (s : State) : (offerDec c s).rename f = offerDec c (s.rename f) := by
  rcases offerDec_cases c s with ⟨hb, h⟩ | ⟨hb, h⟩
  · rw [h, offerDec_busy (by exact hb)]; rfl
  · rw [h, offerDec_idle (by exact hb)]; rfl

theorem rename_offerEnc (c : EncRequest) (s : State) : (offerEnc c s).rename f = offerEnc c (s.rename f) := by
  rcases offerEnc_cases c s with ⟨hb, h⟩ | ⟨hb, h⟩
  · rw [h, offerEnc_busy (by exact hb)]; rfl
  · rw [h, offerEnc_idle (by exact hb)]; rfl

theorem rename_acceptHeldDec (k : Nat) (s : State) :
    (acceptHeldDec k s).rename f = acceptHeldDec k (s.rename f) := by
  rcases acceptHeldDec_cases k s with ⟨hb, c, hk, h⟩ | ⟨h, hb | hk⟩
  · rw [h]; simp only [acceptHeldDec, rename_decBusy, rename_decHeld, hb, hk]; rfl
  · rw [h]; simp [acceptHeldDec, hb]
  · rw [h]; simp [acceptHeldDec, hk]

theorem rename_acceptHeldEnc (k : Nat) (s : State) :
    (acceptHeldEnc k s).rename f = acceptHeldEnc k (s.rename f) := by
  rcases acceptHeldEnc_cases k s with ⟨hb, c, hk, h⟩ | ⟨h, hb | hk⟩
  · rw [h]; simp only [acceptHeldEnc, rename_encBusy, rename_encHeld, hb, hk]; rfl
  · rw [h]; simp [acceptHeldEnc, hb]
  · rw [h]; simp [acceptHeldEnc, hk]

/-! ## The byte steps -/

/-- Whether DEC takes a byte, takes a failure or waits does not depend on the fault value it is given. -/
theorem rename_decStep (s : State) : (decStep s).rename f = decStep (s.rename f) := by
  rcases decStep_cases s with ⟨h, hb | hs⟩ | ⟨e, rest, hb, hs, h⟩ | ⟨b, rest, hb, hs, hi, ho, h⟩ |
    ⟨b, rest, hb, hs, ho, hc, h⟩ | ⟨b, rest, hb, hs, ho, hc, h⟩
  · rw [h, decStep_idle (by exact hb)]
  · rw [h, decStep_waits (by simp [hs])]
  · rw [h, decStep_fault (s := s.rename f) hb (rename_source_fault f hs)]
    simp [State.rename]
  · rw [h, decStep_overflow (s := s.rename f) hb (rename_source_byte f hs) hi ho]
    simp [State.rename]
  · rw [h, decStep_continues (s := s.rename f) hb (rename_source_byte f hs) ho hc]; rfl
  · rw [h, decStep_ends (s := s.rename f) hb (rename_source_byte f hs) ho hc]
    simp [State.rename]

/-- Whether ENC goes on, ends, takes a failure or waits does not depend on the fault value it is given. -/
theorem rename_encStep (s : State) : (encStep s).rename f = encStep (s.rename f) := by
  rcases encStep_cases s with ⟨h, hb | hs⟩ | ⟨e, rest, hb, hs, h⟩ | ⟨rest, hb, hs, hm, h⟩ | ⟨rest, hb, hs, hm, h⟩
  · rw [h, encStep_idle (by exact hb)]
  · rw [h, encStep_waits (by simp [hs])]
  · rw [h, encStep_fault (s := s.rename f) hb (rename_sink_fault f hs)]
    simp [State.rename]
  · rw [h, encStep_continues (s := s.rename f) hb (rename_sink_ack f hs) hm]
    simp [State.rename]
  · rw [h, encStep_ends (s := s.rename f) hb (rename_sink_ack f hs) hm]
    simp [State.rename]

/-! ## The requester's moves -/

/-- A read succeeds or faults by which fields are present, not by the fault value in them. -/
theorem readField_rename (k : Nat) (fld : ResponseField) (s : State) :
    readField k fld (s.rename f) = mapNext (State.rename f) (readField k fld s) := by
  cases hk : s.received[k]? with
  | none => simp [readField, hk, mapNext]
  | some d =>
    have hread : (Delivery.rename f d).response.read fld = (d.response.read fld).map (FieldValue.rename f) :=
      read_rename f d.response fld
    cases hv : d.response.read fld with
    | none => simp [readField, hk, hread, hv, mapNext]
    | some v => simp [readField, hk, hread, hv, mapNext, State.rename]

theorem exec_rename (i : Instr) (s : State) : exec i (s.rename f) = mapNext (State.rename f) (exec i s) := by
  cases i with
  | vdecU => exact congrArg _ (rename_offerDec f _ s).symm
  | vencU v => exact congrArg _ (rename_offerEnc f _ s).symm
  | zzEnc v => exact congrArg _ (rename_finish f _ _ s).symm
  | zzDec u => exact congrArg _ (rename_finish f _ _ s).symm
  | vdecS => exact congrArg _ (rename_offerDec f _ s).symm
  | vencS v => exact congrArg _ (rename_offerEnc f _ s).symm
  | reserved110 => rfl
  | reserved111 => rfl

/-! ## Moves, steps and runs -/

theorem runMove_rename (m : Move) (s : State) :
    runMove m (s.rename f) = mapNext (State.rename f) (runMove m s) := by
  cases m with
  | request =>
    cases hr : s.requests with
    | nil => simp [runMove, nextRequest, hr, mapNext]
    | cons w ws =>
      simp only [runMove, nextRequest, rename_requests, hr]
      exact exec_rename f (decode w) { s with requests := ws }
  | acceptDec k => exact congrArg _ (rename_acceptHeldDec f k s).symm
  | acceptEnc k => exact congrArg _ (rename_acceptHeldEnc f k s).symm
  | srcAnswer => exact congrArg _ (rename_decStep f s).symm
  | snkAnswer => exact congrArg _ (rename_encStep f s).symm
  | read k fld => exact readField_rename f k fld s

theorem step_rename (s : State) : step (s.rename f) = mapNext (State.rename f) (step s) := by
  rcases hs : s.schedule with _ | ⟨⟨_ | _, m⟩, ts⟩
  · rw [step_noTurn hs, step_noTurn (by exact hs)]; rfl
  · rw [step_move hs, step_move (s := s.rename f) hs]
    exact runMove_rename f m { s with schedule := ts }
  · rw [step_reset hs, step_reset (s := s.rename f) hs]; rfl

end

/-- Settles O44, by induction on the number of steps: every step commutes with renaming. -/
theorem faultValuesPassThroughUninterpreted : Obligations.FaultValuesPassThroughUninterpreted := by
  intro f n
  induction n with
  | zero => intro s; rfl
  | succ n ih =>
    intro s
    rw [runSteps, runSteps, step_rename]
    cases step s with
    | next t => exact ih t
    | fault r => rfl
    | refused r => rfl

end Sys2Proof.Machine
end

section
/-!
The requester's turn and the held requests (10_state.md R17, R21, R22; 30_encoding.md R55, R56): a turn of the requester runs
the command its next word decodes to, a busy unit holds what it is offered, and an idle unit accepts what it holds.
-/

namespace Sys2Proof.Machine

/-! ## The requester's turn -/

theorem runMove_request_none {s : State} (h : s.requests = []) : runMove .request s = .next s := by
  simp [runMove, nextRequest, h]

theorem runMove_request_cons {s : State} {w : CommandWord} {ws : List CommandWord} (h : s.requests = w :: ws) :
    runMove .request s = exec (decode w) { s with requests := ws } := by
  simp [runMove, nextRequest, h]

/-- Everything the requester's move can do when it answers next: nothing, or run its next command. -/
theorem runMove_request_cases {s t : State} (h : runMove .request s = .next t) :
    t = s ∨ ∃ i ws, exec i { s with requests := ws } = .next t := by
  rcases hr : s.requests with _ | ⟨w, ws⟩
  · rw [runMove_request_none hr] at h
    cases h
    exact .inl rfl
  · rw [runMove_request_cons hr] at h
    exact .inr ⟨_, ws, h⟩

/-- What the table decoder reads is the command of the word that `withFetchWord` stores. -/
theorem decode_fetchWord {nbits w : Nat} {i : Instr} (h : decodeTableWord nbits w = some i) :
    decode (fetchWord nbits w) = i := by
  by_cases hlt : w % 2 ^ nbits < 2 ^ 35
  · simpa only [decodeTableWord, decodeNumber, if_pos hlt, Option.some.injEq, fetchWord] using h
  · simp only [decodeTableWord, decodeNumber, if_neg hlt, reduceCtorEq] at h

/-- Settles O5: a turn without reset is its move, and the requester's move runs its next word. -/
theorem stepRunsTheDecodedCommand : Obligations.StepRunsTheDecodedCommand := by
  intro s ts hs
  refine ⟨fun w ws hr => ?_, fun hr => ?_⟩
  · rw [step_move hs]; exact runMove_request_cons hr
  · rw [step_move hs]; exact runMove_request_none hr

/-- Settles O6: the stored word and its turn stand first, so O5 applies and leaves the state stored into. -/
theorem fetchedWordIsRunNext : Obligations.FetchedWordIsRunNext := by
  intro s nbits w i hi
  have hrun := (stepRunsTheDecodedCommand (s.withFetchWord nbits w) s.schedule rfl).1 _ _ rfl
  rw [decode_fetchWord hi] at hrun
  exact hrun

/-! ## Holding and accepting -/

/-- Settles O16: all four commands of the sequential units are offers, and a busy unit holds an offer. -/
theorem busyUnitHoldsTheRequest : Obligations.BusyUnitHoldsTheRequest := by
  intro s
  refine ⟨fun hb => ⟨?_, ?_⟩, fun hb v => ⟨?_, ?_⟩⟩
  · exact congrArg _ (offerDec_busy hb .vdecU)
  · exact congrArg _ (offerDec_busy hb .vdecS)
  · exact congrArg _ (offerEnc_busy hb (.vencU v))
  · exact congrArg _ (offerEnc_busy hb (.vencS v))

theorem acceptHeldDec_busy {s : State} (h : s.decBusy = true) (k : Nat) : acceptHeldDec k s = s := by
  simp [acceptHeldDec, h]

theorem acceptHeldEnc_busy {s : State} (h : s.encBusy = true) (k : Nat) : acceptHeldEnc k s = s := by
  simp [acceptHeldEnc, h]

/-- An idle DEC accepts a held request as if it were offered now, and no longer holds it. -/
theorem acceptHeldDec_idle {s : State} {k : Nat} {c : DecRequest} (h : s.decBusy = false)
    (hk : s.decHeld[k]? = some c) : acceptHeldDec k s = offerDec c { s with decHeld := s.decHeld.eraseIdx k } := by
  rw [offerDec_idle (by exact h)]
  simp [acceptHeldDec, h, hk]

/-- An idle ENC accepts a held request as if it were offered now, and no longer holds it. -/
theorem acceptHeldEnc_idle {s : State} {k : Nat} {c : EncRequest} (h : s.encBusy = false)
    (hk : s.encHeld[k]? = some c) : acceptHeldEnc k s = offerEnc c { s with encHeld := s.encHeld.eraseIdx k } := by
  rw [offerEnc_idle (by exact h)]
  simp [acceptHeldEnc, h, hk]

theorem step_acceptDec {s : State} {k : Nat} {ts : List Turn} (h : s.schedule = ⟨false, .acceptDec k⟩ :: ts) :
    step s = .next (acceptHeldDec k { s with schedule := ts }) := step_move h

theorem step_acceptEnc {s : State} {k : Nat} {ts : List Turn} (h : s.schedule = ⟨false, .acceptEnc k⟩ :: ts) :
    step s = .next (acceptHeldEnc k { s with schedule := ts }) := step_move h

/-- Settles O17: accepting a held request is offering it to the idle unit; a busy unit accepts none. -/
theorem heldRequestIsAcceptedWhenIdle : Obligations.HeldRequestIsAcceptedWhenIdle := by
  intro s k ts
  refine ⟨fun hs => ⟨fun hb => ?_, fun hb hk => ?_, fun hb hk => ?_⟩,
    fun hs => ⟨fun hb => ?_, fun v => ⟨fun hb hk => ?_, fun hb hk => ?_⟩⟩⟩
  · rw [step_acceptDec hs, acceptHeldDec_busy (by exact hb)]
  · rw [step_acceptDec hs, acceptHeldDec_idle (by exact hb) (by exact hk)]; rfl
  · rw [step_acceptDec hs, acceptHeldDec_idle (by exact hb) (by exact hk)]; rfl
  · rw [step_acceptEnc hs, acceptHeldEnc_busy (by exact hb)]
  · rw [step_acceptEnc hs, acceptHeldEnc_idle (by exact hb) (by exact hk)]; rfl
  · rw [step_acceptEnc hs, acceptHeldEnc_idle (by exact hb) (by exact hk)]; rfl

end Sys2Proof.Machine
end

section
/-!
The invariant of the working registers (10_state.md R18, R19): every move and every reset keeps it, so every step does.
-/

namespace Sys2Proof.Machine

/-! ## Invariants of a step -/

/-- What each reset and each move keeps, and what does not look at the schedule, every step keeps. -/
theorem step_keeps {P : State → Prop} (hsched : ∀ s ts, P s → P { s with schedule := ts })
    (hreset : ∀ s, P s → P (resetBlock s)) (hmove : ∀ m s t, P s → runMove m s = .next t → P t) {s t : State}
    (hs : P s) (h : step s = .next t) : P t := by
  rcases hsch : s.schedule with _ | ⟨⟨_ | _, m⟩, ts⟩
  · rw [step_noTurn hsch] at h
    cases h
    exact hs
  · rw [step_move hsch] at h
    exact hmove m _ t (hsched s ts hs) h
  · rw [step_reset hsch] at h
    cases h
    exact hreset _ (hsched s ts hs)

/-! ## The registers' bounds -/

/-- Placing a group at index `k` fills the accumulator up to the groups below `k + 1` (R18, R47). -/
theorem or_placed_lt {acc : Word} {k : Nat} (h : acc.toNat < 2 ^ (7 * k)) (b : Byte) :
    (acc ||| placed k b).toNat < 2 ^ (7 * (k + 1)) := by
  have hacc : acc.toNat < 2 ^ (7 * (k + 1)) := h.trans_le (Nat.pow_le_pow_right (by omega) (by omega))
  rw [BitVec.toNat_or]
  exact Nat.or_lt_two_pow hacc (placed_lt k b)

/-- While groups remain after the one pushed, the next group index is one more and at most 4: a remaining value at index 4
has only `LASTBITS` bits (R19, R67). -/
theorem encIdx_succ {i : BitVec 3} {rem : Word} (hi : i.toNat ≤ 4) (hrem : rem.toNat < 2 ^ (32 - 7 * i.toNat))
    (hm : moreGroups rem = true) : (i + 1#3).toNat = i.toNat + 1 ∧ i.toNat ≤ 3 := by
  have h128 : 128 ≤ rem.toNat := (moreGroups_iff_ge rem).1 hm
  have h4 : i.toNat ≠ 4 := by
    intro e
    rw [e] at hrem
    omega
  have h1 : (i + 1#3).toNat = (i.toNat + 1) % 8 := by simp [BitVec.toNat_add]
  omega

/-- Dropping a group leaves the bits above the next group index (R19, R67). -/
theorem dropGroup_lt {rem : Word} {k : Nat} (hk : k ≤ 3) (h : rem.toNat < 2 ^ (32 - 7 * k)) :
    (dropGroup rem).toNat < 2 ^ (32 - 7 * (k + 1)) := by
  have hpow : 2 ^ (32 - 7 * k) = 128 * 2 ^ (32 - 7 * (k + 1)) := by
    rw [show 32 - 7 * k = 7 + (32 - 7 * (k + 1)) by omega, pow_add]
    rfl
  rw [toNat_dropGroup]
  exact Nat.div_lt_of_lt_mul (hpow ▸ h)

/-! ## What keeps the invariant -/

theorem resetBlock_inv (s : State) : (resetBlock s).Inv := by
  simp [State.Inv]

theorem acceptDec_inv (c : DecRequest) {s : State} (h : s.Inv) : (acceptDec c s).Inv := by
  obtain ⟨_, hei, _, her⟩ := h
  exact ⟨by simp, hei, by simp, her⟩

theorem acceptEnc_inv (c : EncRequest) {s : State} (h : s.Inv) : (acceptEnc c s).Inv := by
  obtain ⟨hdi, _, hda, _⟩ := h
  refine ⟨hdi, by simp, hda, fun _ => ?_⟩
  exact c.start.isLt

theorem offerDec_inv (c : DecRequest) {s : State} (h : s.Inv) : (offerDec c s).Inv := by
  rcases offerDec_cases c s with ⟨_, ho⟩ | ⟨_, ho⟩ <;> rw [ho]
  · exact h
  · exact acceptDec_inv c h

theorem offerEnc_inv (c : EncRequest) {s : State} (h : s.Inv) : (offerEnc c s).Inv := by
  rcases offerEnc_cases c s with ⟨_, ho⟩ | ⟨_, ho⟩ <;> rw [ho]
  · exact h
  · exact acceptEnc_inv c h

theorem exec_inv {i : Instr} {s t : State} (h : s.Inv) (he : exec i s = .next t) : t.Inv := by
  rcases exec_cases he with ⟨c, rfl⟩ | ⟨c, rfl⟩ | ⟨v, rfl⟩ | ⟨u, rfl⟩
  · exact offerDec_inv c h
  · exact offerEnc_inv c h
  · exact h
  · exact h

theorem acceptHeldDec_inv (k : Nat) {s : State} (h : s.Inv) : (acceptHeldDec k s).Inv := by
  rcases acceptHeldDec_cases k s with ⟨_, c, _, ha⟩ | ⟨ha, _⟩ <;> rw [ha]
  · exact acceptDec_inv c h
  · exact h

theorem acceptHeldEnc_inv (k : Nat) {s : State} (h : s.Inv) : (acceptHeldEnc k s).Inv := by
  rcases acceptHeldEnc_cases k s with ⟨_, c, _, ha⟩ | ⟨ha, _⟩ <;> rw [ha]
  · exact acceptEnc_inv c h
  · exact h

/-- DEC ending an operation leaves its registers, and an idle unit's are bounded by less; DEC going on moves the index and
the accumulator up one group together. -/
theorem decStep_inv {s : State} (h : s.Inv) : (decStep s).Inv := by
  obtain ⟨hdi, hei, hda, her⟩ := h
  rcases decStep_cases s with ⟨hd, _⟩ | ⟨_, _, _, _, hd⟩ | ⟨_, _, _, _, _, _, hd⟩ | ⟨b, _, hb, _, ho, hc, hd⟩ |
    ⟨_, _, _, _, _, _, hd⟩ <;> rw [hd]
  · exact ⟨hdi, hei, hda, her⟩
  · exact ⟨hdi, hei, by simp, her⟩
  · exact ⟨hdi, hei, by simp, her⟩
  · obtain ⟨hsucc, hle⟩ := decIdx_succ hdi ho hc
    refine ⟨?_, hei, fun _ => ?_, her⟩
    · change (s.decIdx + 1#3).toNat ≤ 4
      omega
    · change (s.decAcc ||| placed s.decIdx.toNat b).toNat < 2 ^ (7 * (s.decIdx + 1#3).toNat)
      rw [hsucc]
      exact or_placed_lt (hda hb) b
  · exact ⟨hdi, hei, by simp, her⟩

/-- ENC ending an operation leaves its registers; ENC going on moves the index up and the remaining value down one group. -/
theorem encStep_inv {s : State} (h : s.Inv) : (encStep s).Inv := by
  obtain ⟨hdi, hei, hda, her⟩ := h
  rcases encStep_cases s with ⟨he, _⟩ | ⟨_, _, _, _, he⟩ | ⟨_, hb, _, hm, he⟩ | ⟨_, _, _, _, he⟩ <;> rw [he]
  · exact ⟨hdi, hei, hda, her⟩
  · exact ⟨hdi, hei, hda, by simp⟩
  · obtain ⟨hsucc, hle⟩ := encIdx_succ hei (her hb) hm
    refine ⟨hdi, ?_, hda, fun _ => ?_⟩
    · change (s.encIdx + 1#3).toNat ≤ 4
      omega
    · change (dropGroup s.encRem).toNat < 2 ^ (32 - 7 * (s.encIdx + 1#3).toNat)
      rw [hsucc]
      exact dropGroup_lt hle (her hb)
  · exact ⟨hdi, hei, hda, by simp⟩

theorem runMove_inv {m : Move} {s t : State} (h : s.Inv) (hm : runMove m s = .next t) : t.Inv := by
  cases m with
  | request =>
    rcases runMove_request_cases hm with rfl | ⟨i, ws, he⟩
    · exact h
    · exact exec_inv (s := { s with requests := ws }) h he
  | acceptDec k => cases hm; exact acceptHeldDec_inv k h
  | acceptEnc k => cases hm; exact acceptHeldEnc_inv k h
  | srcAnswer => cases hm; exact decStep_inv h
  | snkAnswer => cases hm; exact encStep_inv h
  | read k f =>
    obtain ⟨_, _, _, _, rfl⟩ := readField_next hm
    exact h

/-- Settles O37: every move and every reset keeps the invariant, and it does not look at the schedule. -/
theorem stepKeepsGroupIndicesLegal : Obligations.StepKeepsGroupIndicesLegal :=
  fun _ _ hinv hstep =>
    step_keeps (P := State.Inv) (fun _ _ h => h) (fun s _ => resetBlock_inv s) (fun _ _ _ h hm => runMove_inv h hm)
      hinv hstep

/-- Settles O34: each of the five fields is written out in the reset state. -/
theorem resetStateIsIdle : Obligations.ResetStateIsIdle := ⟨rfl, rfl, rfl, rfl, rfl⟩

/-- Settles O36: the indices are zero, both units idle and no response there. -/
theorem resetMeetsTheInvariants : Obligations.ResetMeetsTheInvariants := by
  obtain ⟨hdec, henc, _, _, hrec⟩ := resetStateIsIdle
  refine ⟨⟨?_, ?_, ?_, ?_⟩, ?_⟩
  · decide
  · decide
  · simp [hdec]
  · simp [henc]
  · simp [State.responsesShaped, hrec]

end Sys2Proof.Machine
end

section
/-!
Responses (10_state.md R23; 60_exceptions.md R83): a move brings at most one response, DEC's or ENC's exactly when that unit
becomes idle, and each response has the fields and the status its unit can give (30_encoding.md R59).
-/

namespace Sys2Proof.Machine

/-! ## What a move brings -/

/-- How a move from `s` to `t` bears on the responses and on which units are busy. -/
inductive Answered (s t : State) : Prop where
  /-- No response, and no operation ends. -/
  | quiet (received : t.received = s.received) (dec : s.decBusy = true → t.decBusy = true)
      (enc : s.encBusy = true → t.encBusy = true)
  /-- DEC's operation ends with its one response. -/
  | decEnds (r : Response) (shaped : Delivery.shaped ⟨.dec, r⟩ = true)
      (received : t.received = s.received ++ [⟨.dec, r⟩]) (busy : s.decBusy = true) (idle : t.decBusy = false)
      (enc : t.encBusy = s.encBusy)
  /-- ENC's operation ends with its one response. -/
  | encEnds (r : Response) (shaped : Delivery.shaped ⟨.enc, r⟩ = true)
      (received : t.received = s.received ++ [⟨.enc, r⟩]) (busy : s.encBusy = true) (idle : t.encBusy = false)
      (dec : t.decBusy = s.decBusy)
  /-- ZZE or ZZD answers at once, and neither DEC nor ENC begins or ends anything. -/
  | combinational (d : Delivery) (shaped : d.shaped = true) (notDec : d.source ≠ .dec) (notEnc : d.source ≠ .enc)
      (received : t.received = s.received ++ [d]) (dec : t.decBusy = s.decBusy) (enc : t.encBusy = s.encBusy)

theorem Answered.refl (s : State) : Answered s s := .quiet rfl id id

theorem offerDec_answered (c : DecRequest) (s : State) : Answered s (offerDec c s) := by
  rcases offerDec_cases c s with ⟨_, h⟩ | ⟨_, h⟩ <;> rw [h]
  · exact .quiet rfl id id
  · exact .quiet rfl (fun _ => rfl) id

theorem offerEnc_answered (c : EncRequest) (s : State) : Answered s (offerEnc c s) := by
  rcases offerEnc_cases c s with ⟨_, h⟩ | ⟨_, h⟩ <;> rw [h]
  · exact .quiet rfl id id
  · exact .quiet rfl id (fun _ => rfl)

theorem acceptHeldDec_answered (k : Nat) (s : State) : Answered s (acceptHeldDec k s) := by
  rcases acceptHeldDec_cases k s with ⟨_, _, _, h⟩ | ⟨h, _⟩ <;> rw [h]
  · exact .quiet rfl (fun _ => rfl) id
  · exact .refl s

theorem acceptHeldEnc_answered (k : Nat) (s : State) : Answered s (acceptHeldEnc k s) := by
  rcases acceptHeldEnc_cases k s with ⟨_, _, _, h⟩ | ⟨h, _⟩ <;> rw [h]
  · exact .quiet rfl id (fun _ => rfl)
  · exact .refl s

/-- Three of DEC's four byte steps end the operation, by a source fault, by an overflow and by the last byte. -/
theorem decStep_answered (s : State) : Answered s (decStep s) := by
  rcases decStep_cases s with ⟨h, _⟩ | ⟨_, _, hb, _, h⟩ | ⟨_, _, hb, _, _, _, h⟩ | ⟨_, _, _, _, _, _, h⟩ |
    ⟨_, _, hb, _, _, _, h⟩ <;> rw [h]
  · exact .refl s
  · exact .decEnds _ rfl rfl hb rfl rfl
  · exact .decEnds _ rfl rfl hb rfl rfl
  · exact .quiet rfl id id
  · exact .decEnds _ rfl rfl hb rfl rfl

/-- Two of ENC's three byte steps end the operation, by a sink fault and by the last byte's acknowledgement. -/
theorem encStep_answered (s : State) : Answered s (encStep s) := by
  rcases encStep_cases s with ⟨h, _⟩ | ⟨_, _, hb, _, h⟩ | ⟨_, _, _, _, h⟩ | ⟨_, hb, _, _, h⟩ <;> rw [h]
  · exact .refl s
  · exact .encEnds _ rfl rfl hb rfl rfl
  · exact .quiet rfl id id
  · exact .encEnds _ rfl rfl hb rfl rfl

theorem exec_answered {i : Instr} {s t : State} (h : exec i s = .next t) : Answered s t := by
  rcases exec_cases h with ⟨c, rfl⟩ | ⟨c, rfl⟩ | ⟨v, rfl⟩ | ⟨u, rfl⟩
  · exact offerDec_answered c s
  · exact offerEnc_answered c s
  · exact .combinational ⟨.zze, _⟩ rfl nofun nofun rfl rfl rfl
  · exact .combinational ⟨.zzd, _⟩ rfl nofun nofun rfl rfl rfl

theorem answered_of_requests {s t : State} {ws : List CommandWord} (h : Answered { s with requests := ws } t) :
    Answered s t := by
  cases h with
  | quiet r d e => exact .quiet r d e
  | decEnds r sh rec b i e => exact .decEnds r sh rec b i e
  | encEnds r sh rec b i d => exact .encEnds r sh rec b i d
  | combinational d sh nd ne rec db eb => exact .combinational d sh nd ne rec db eb

theorem runMove_answered {m : Move} {s t : State} (h : runMove m s = .next t) : Answered s t := by
  cases m with
  | request =>
    rcases runMove_request_cases h with rfl | ⟨i, ws, he⟩
    · exact .refl t
    · exact answered_of_requests (exec_answered he)
  | acceptDec k => cases h; exact acceptHeldDec_answered k s
  | acceptEnc k => cases h; exact acceptHeldEnc_answered k s
  | srcAnswer => cases h; exact decStep_answered s
  | snkAnswer => cases h; exact encStep_answered s
  | read k f =>
    obtain ⟨_, _, _, _, rfl⟩ := readField_next h
    exact .quiet rfl id id

/-! ## The shape of the responses -/

theorem responsesShaped_append {s t : State} {d : Delivery} (h : s.responsesShaped)
    (hr : t.received = s.received ++ [d]) (hd : d.shaped = true) : t.responsesShaped := by
  intro e he
  rw [hr, List.mem_append, List.mem_singleton] at he
  rcases he with he | rfl
  · exact h e he
  · exact hd

theorem Answered.keeps_responsesShaped {s t : State} (ha : Answered s t) (h : s.responsesShaped) :
    t.responsesShaped := by
  cases ha with
  | quiet hr _ _ => rwa [State.responsesShaped, hr]
  | decEnds r hd hr _ _ _ => exact responsesShaped_append h hr hd
  | encEnds r hd hr _ _ _ => exact responsesShaped_append h hr hd
  | combinational d hd _ _ hr _ _ => exact responsesShaped_append h hr hd

/-- Settles O38: every response a move brings is shaped, and a reset brings none. -/
theorem stepKeepsResponsesShaped : Obligations.StepKeepsResponsesShaped :=
  fun _ _ hs hstep =>
    step_keeps (P := State.responsesShaped) (fun _ _ h => h) (fun _ h => h)
      (fun _ _ _ h hm => (runMove_answered hm).keeps_responsesShaped h) hs hstep

/-! ## One response for each operation -/

theorem responsesOf_append_length {s t : State} {d : Delivery} (h : t.received = s.received ++ [d]) (u : UnitName) :
    (t.responsesOf u).length = (s.responsesOf u).length + if d.source = u then 1 else 0 := by
  by_cases hu : d.source = u <;> simp [State.responsesOf, h, hu]

theorem responsesOf_length_eq {s t : State} (h : t.received = s.received) (u : UnitName) :
    (t.responsesOf u).length = (s.responsesOf u).length := by
  rw [State.responsesOf, State.responsesOf, h]

/-- A move brings a response of DEC exactly when it ends DEC's operation (R23). -/
theorem Answered.dec_count {s t : State} (h : Answered s t) :
    (t.responsesOf .dec).length =
      (s.responsesOf .dec).length + if s.decBusy = true ∧ t.decBusy = false then 1 else 0 := by
  cases h with
  | quiet hr hd _ =>
    have hstays : ¬(s.decBusy = true ∧ t.decBusy = false) := fun ⟨hb, hi⟩ => by simp [hd hb] at hi
    rw [responsesOf_length_eq hr, if_neg hstays, Nat.add_zero]
  | decEnds r _ hr hb hi _ => simp [responsesOf_append_length hr, hb, hi]
  | encEnds r _ hr _ _ hd => simp [responsesOf_append_length hr, hd]
  | combinational d _ hnd _ hr hd _ => simp [responsesOf_append_length hr, hnd, hd]

/-- A move brings a response of ENC exactly when it ends ENC's operation (R23). -/
theorem Answered.enc_count {s t : State} (h : Answered s t) :
    (t.responsesOf .enc).length =
      (s.responsesOf .enc).length + if s.encBusy = true ∧ t.encBusy = false then 1 else 0 := by
  cases h with
  | quiet hr _ he =>
    have hstays : ¬(s.encBusy = true ∧ t.encBusy = false) := fun ⟨hb, hi⟩ => by simp [he hb] at hi
    rw [responsesOf_length_eq hr, if_neg hstays, Nat.add_zero]
  | decEnds r _ hr _ _ he => simp [responsesOf_append_length hr, he]
  | encEnds r _ hr hb hi _ => simp [responsesOf_append_length hr, hb, hi]
  | combinational d _ _ hne hr _ he => simp [responsesOf_append_length hr, hne, he]

/-- Settles O39: a turn without reset is a move, and a reset leaves the responses received. -/
theorem eachOperationGetsOneResponse : Obligations.EachOperationGetsOneResponse := by
  rintro s t ⟨reset, m⟩ ts hs hstep
  refine ⟨fun hr => ?_, fun hr => ?_⟩
  · cases hr
    rw [step_move hs] at hstep
    have ha := runMove_answered hstep
    exact ⟨ha.dec_count, ha.enc_count⟩
  · cases hr
    rw [step_reset hs] at hstep
    cases hstep
    rfl

end Sys2Proof.Machine
end

section
/-!
The working registers of an idle unit are dead (10_state.md R30): blanking them first changes no operation's result, but for
registers that are dead after it too. One lemma per operation, in the order of the model's definitions; then moves, steps and
runs.
-/

namespace Sys2Proof.Machine

/-! ## What blanking leaves alone -/

@[simp] theorem live_decBusy (s : State) : s.live.decBusy = s.decBusy := rfl
@[simp] theorem live_encBusy (s : State) : s.live.encBusy = s.encBusy := rfl
@[simp] theorem live_decHeld (s : State) : s.live.decHeld = s.decHeld := rfl
@[simp] theorem live_encHeld (s : State) : s.live.encHeld = s.encHeld := rfl
@[simp] theorem live_requests (s : State) : s.live.requests = s.requests := rfl
@[simp] theorem live_received (s : State) : s.live.received = s.received := rfl

/-- A busy DEC's registers are live. -/
theorem live_of_decBusy {s : State} (h : s.decBusy = true) : s.live = { s with
    encIdx := if s.encBusy then s.encIdx else 0#3, encRem := if s.encBusy then s.encRem else 0#32 } := by
  simp [State.live, h]

/-- A busy ENC's registers are live. -/
theorem live_of_encBusy {s : State} (h : s.encBusy = true) : s.live = { s with
    decIdx := if s.decBusy then s.decIdx else 0#3, decAcc := if s.decBusy then s.decAcc else 0#32
    decSigned := if s.decBusy then s.decSigned else false } := by
  simp [State.live, h]

theorem live_live (s : State) : s.live.live = s.live := by
  cases hd : s.decBusy <;> cases he : s.encBusy <;> simp [State.live, hd, he]

/-! ## The shared operations -/

theorem acceptDec_live (c : DecRequest) (s : State) : (acceptDec c s.live).live = (acceptDec c s).live := by
  cases he : s.encBusy <;> simp [State.live, acceptDec, he]

theorem acceptEnc_live (c : EncRequest) (s : State) : (acceptEnc c s.live).live = (acceptEnc c s).live := by
  cases hd : s.decBusy <;> simp [State.live, acceptEnc, hd]

theorem offerDec_live (c : DecRequest) (s : State) : (offerDec c s.live).live = (offerDec c s).live := by
  rcases offerDec_cases c s with ⟨hb, h⟩ | ⟨hb, h⟩
  · rw [h, offerDec_busy (s := s.live) hb]
    exact live_live { s with decHeld := s.decHeld ++ [c] }
  · rw [h, offerDec_idle (s := s.live) hb, acceptDec_live]

theorem offerEnc_live (c : EncRequest) (s : State) : (offerEnc c s.live).live = (offerEnc c s).live := by
  rcases offerEnc_cases c s with ⟨hb, h⟩ | ⟨hb, h⟩
  · rw [h, offerEnc_busy (s := s.live) hb]
    exact live_live { s with encHeld := s.encHeld ++ [c] }
  · rw [h, offerEnc_idle (s := s.live) hb, acceptEnc_live]

theorem acceptHeldDec_live (k : Nat) (s : State) :
    (acceptHeldDec k s.live).live = (acceptHeldDec k s).live := by
  rcases acceptHeldDec_cases k s with ⟨hb, c, hk, h⟩ | ⟨h, hb | hk⟩ <;> rw [h]
  · simp only [acceptHeldDec, live_decBusy, live_decHeld, hb, hk]
    exact acceptDec_live c { s with decHeld := s.decHeld.eraseIdx k }
  · simp [acceptHeldDec, hb, live_live]
  · simp [acceptHeldDec, hk, live_live]

theorem acceptHeldEnc_live (k : Nat) (s : State) :
    (acceptHeldEnc k s.live).live = (acceptHeldEnc k s).live := by
  rcases acceptHeldEnc_cases k s with ⟨hb, c, hk, h⟩ | ⟨h, hb | hk⟩ <;> rw [h]
  · simp only [acceptHeldEnc, live_encBusy, live_encHeld, hb, hk]
    exact acceptEnc_live c { s with encHeld := s.encHeld.eraseIdx k }
  · simp [acceptHeldEnc, hb, live_live]
  · simp [acceptHeldEnc, hk, live_live]

/-- An idle DEC takes no byte step; a busy one's registers are live, and its byte step does not look at ENC's
registers. -/
theorem decStep_live (s : State) : (decStep s.live).live = (decStep s).live := by
  cases hb : s.decBusy with
  | false => rw [decStep_idle hb, decStep_idle (s := s.live) hb, live_live]
  | true =>
    obtain ⟨rs, hshape⟩ := decStep_shape s
    have hr : (decStep s).received = s.received ++ rs.map (⟨.dec, ·⟩) := by rw [hshape]
    have hbeside := decStep_beside s s.encBusy (if s.encBusy then s.encIdx else 0#3)
      (if s.encBusy then s.encRem else 0#32) s.sink s.offers s.received _ hr
    rw [live_of_decBusy hb]
    refine (congrArg State.live hbeside).trans ?_
    rw [hshape]
    cases s.encBusy <;> simp [State.live]

/-- An idle ENC takes no byte step; a busy one's registers are live, and its byte step does not look at DEC's
registers. -/
theorem encStep_live (s : State) : (encStep s.live).live = (encStep s).live := by
  cases hb : s.encBusy with
  | false => rw [encStep_idle hb, encStep_idle (s := s.live) hb, live_live]
  | true =>
    obtain ⟨rs, hshape⟩ := encStep_shape s
    have hr : (encStep s).received = s.received ++ rs.map (⟨.enc, ·⟩) := by rw [hshape]
    have hbeside := encStep_beside s s.decBusy (if s.decBusy then s.decIdx else 0#3)
      (if s.decBusy then s.decAcc else 0#32) (if s.decBusy then s.decSigned else false) s.source s.consumed
      s.received _ hr
    rw [live_of_encBusy hb]
    refine (congrArg State.live hbeside).trans ?_
    rw [hshape]
    cases s.decBusy <;> simp [State.live]

/-! ## Moves, steps and runs -/

theorem mapNext_eq_next {f : State → State} {r : Result} {u : State} (h : mapNext f r = .next u) :
    ∃ t, r = .next t ∧ f t = u := by
  cases r with
  | next t => cases h; exact ⟨t, rfl, rfl⟩
  | fault _ => cases h
  | refused _ => cases h

theorem mapNext_eq_fault {f : State → State} {r : Result} {e : Fault} (h : mapNext f r = .fault e) : r = .fault e := by
  cases r with
  | next _ => cases h
  | fault _ => cases h; rfl
  | refused _ => cases h

theorem mapNext_eq_refused {f : State → State} {r : Result} {e : Refusal} (h : mapNext f r = .refused e) :
    r = .refused e := by
  cases r with
  | next _ => cases h
  | fault _ => cases h
  | refused _ => cases h; rfl

/-- No working register is read. -/
theorem readField_live (k : Nat) (f : ResponseField) (s : State) :
    mapNext State.live (readField k f s.live) = mapNext State.live (readField k f s) := by
  cases hk : s.received[k]? with
  | none => simp [readField, hk]
  | some d =>
    cases hv : d.response.read f with
    | none => simp [readField, hk, hv]
    | some v =>
      simp only [readField, live_received, hk, hv]
      exact congrArg Host.Outcome.next (live_live { s with taken := s.taken ++ [v] })

theorem exec_live (i : Instr) (s : State) :
    mapNext State.live (exec i s.live) = mapNext State.live (exec i s) := by
  cases i with
  | vdecU => exact congrArg Host.Outcome.next (offerDec_live _ s)
  | vencU v => exact congrArg Host.Outcome.next (offerEnc_live _ s)
  | zzEnc v => exact congrArg Host.Outcome.next (live_live (finish .zze (some (zze v)) s))
  | zzDec u => exact congrArg Host.Outcome.next (live_live (finish .zzd (some (zzd u)) s))
  | vdecS => exact congrArg Host.Outcome.next (offerDec_live _ s)
  | vencS v => exact congrArg Host.Outcome.next (offerEnc_live _ s)
  | reserved110 => rfl
  | reserved111 => rfl

theorem runMove_live (m : Move) (s : State) :
    mapNext State.live (runMove m s.live) = mapNext State.live (runMove m s) := by
  cases m with
  | request =>
    cases hr : s.requests with
    | nil =>
      rw [runMove_request_none hr, runMove_request_none (s := s.live) hr]
      exact congrArg Host.Outcome.next (live_live s)
    | cons w ws =>
      rw [runMove_request_cons hr, runMove_request_cons (s := s.live) hr]
      exact exec_live (decode w) { s with requests := ws }
  | acceptDec k => exact congrArg Host.Outcome.next (acceptHeldDec_live k s)
  | acceptEnc k => exact congrArg Host.Outcome.next (acceptHeldEnc_live k s)
  | srcAnswer => exact congrArg Host.Outcome.next (decStep_live s)
  | snkAnswer => exact congrArg Host.Outcome.next (encStep_live s)
  | read k f => exact readField_live k f s

theorem step_live (s : State) : mapNext State.live (step s.live) = mapNext State.live (step s) := by
  rcases hs : s.schedule with _ | ⟨⟨_ | _, m⟩, ts⟩
  · rw [step_noTurn hs, step_noTurn (s := s.live) hs]
    exact congrArg Host.Outcome.next (live_live s)
  · rw [step_move hs, step_move (s := s.live) hs]
    exact runMove_live m { s with schedule := ts }
  · rw [step_reset hs, step_reset (s := s.live) hs]
    rfl

/-- Settles O43, by induction on the number of steps: steps from states that are alike but for dead registers answer alike, and
next states that are alike again. -/
theorem deadRegistersAreNeverObserved : Obligations.DeadRegistersAreNeverObserved := by
  intro n
  induction n with
  | zero => intro s; exact congrArg Host.Outcome.next (live_live s)
  | succ n ih =>
    intro s
    have hstep := step_live s
    cases hs : step s with
    | next t =>
      rw [hs] at hstep
      obtain ⟨u, hu, hut⟩ := mapNext_eq_next hstep
      rw [runSteps_succ n hu, runSteps_succ n hs, ← ih u, ← ih t, hut]
    | fault e =>
      rw [hs] at hstep
      simp only [runSteps, mapNext_eq_fault hstep, hs]
    | refused e =>
      rw [hs] at hstep
      simp only [runSteps, mapNext_eq_refused hstep, hs]

end Sys2Proof.Machine
end

section
/-!
The byte streams (20_memory.md R38 to R42; 60_exceptions.md R82, R85, R92): what one byte step takes from its stream and what it
leaves alone, that the byte steps of DEC and ENC commute, and that no step takes anything back.
-/

namespace Sys2Proof.Machine

/-! ## The frame of a byte step, and the responses it brings -/

theorem decStep_received (s : State) :
    ∃ rs : List Response, (decStep s).received = s.received ++ rs.map (⟨.dec, ·⟩) := by
  obtain ⟨rs, h⟩ := decStep_shape s
  exact ⟨rs, congrArg State.received h⟩

theorem encStep_received (s : State) :
    ∃ rs : List Response, (encStep s).received = s.received ++ rs.map (⟨.enc, ·⟩) := by
  obtain ⟨rs, h⟩ := encStep_shape s
  exact ⟨rs, congrArg State.received h⟩

/-- A byte step of DEC changes DEC's registers, its stream and the responses, and not `dec_signed` (R42, R85). -/
theorem decStep_frame (s : State) : decStep s = { s with
    decBusy := (decStep s).decBusy, decIdx := (decStep s).decIdx, decAcc := (decStep s).decAcc
    source := (decStep s).source, consumed := (decStep s).consumed, received := (decStep s).received } := by
  obtain ⟨rs, h⟩ := decStep_shape s
  rw [show (decStep s).received = s.received ++ rs.map (⟨.dec, ·⟩) from congrArg State.received h]
  exact h

/-- A byte step of ENC changes ENC's registers, its stream and the responses (R42, R85). -/
theorem encStep_frame (s : State) : encStep s = { s with
    encBusy := (encStep s).encBusy, encIdx := (encStep s).encIdx, encRem := (encStep s).encRem
    sink := (encStep s).sink, offers := (encStep s).offers, received := (encStep s).received } := by
  obtain ⟨rs, h⟩ := encStep_shape s
  rw [show (encStep s).received = s.received ++ rs.map (⟨.enc, ·⟩) from congrArg State.received h]
  exact h

/-- Responses of unit `v` count for unit `v` alone. -/
theorem responsesOf_append {s t : State} {v : UnitName} {rs : List Response}
    (h : t.received = s.received ++ rs.map (⟨v, ·⟩)) (u : UnitName) :
    t.responsesOf u = s.responsesOf u ++ if v = u then rs else [] := by
  by_cases hu : v = u <;> simp [State.responsesOf, h, hu, List.filter_map, Function.comp_def]

/-- Settles O18: the turn is the idle unit's byte step, which does nothing. -/
theorem idleUnitTakesNoByteStep : Obligations.IdleUnitTakesNoByteStep := by
  intro s ts
  refine ⟨fun hb hs => ?_, fun hb hs => ?_⟩
  · rw [step_src hs, decStep_idle (by exact hb)]
  · rw [step_snk hs, encStep_idle (by exact hb)]

/-- Settles O41: the frame of each byte step, and the unit whose responses it brings. -/
theorem byteStepsTouchOnlyTheirUnit : Obligations.ByteStepsTouchOnlyTheirUnit := by
  intro s t ts
  refine ⟨fun hs hstep => ?_, fun hs hstep => ?_⟩
  · rw [step_src hs] at hstep
    cases hstep
    obtain ⟨rs, hr⟩ := decStep_received { s with schedule := ts }
    refine ⟨decStep_frame _, fun u hu => ?_⟩
    rw [responsesOf_append hr, if_neg hu.symm, List.append_nil]
    rfl
  · rw [step_snk hs] at hstep
    cases hstep
    obtain ⟨rs, hr⟩ := encStep_received { s with schedule := ts }
    refine ⟨encStep_frame _, fun u hu => ?_⟩
    rw [responsesOf_append hr, if_neg hu.symm, List.append_nil]
    rfl

/-! ## The byte steps of the two units commute -/

/-- ENC's byte step after DEC's: DEC's side is as DEC left it, and ENC's response comes last. -/
theorem encStep_decStep {s : State} {re : List Delivery} (he : (encStep s).received = s.received ++ re) :
    encStep (decStep s) = { encStep s with
      decBusy := (decStep s).decBusy, decIdx := (decStep s).decIdx, decAcc := (decStep s).decAcc
      source := (decStep s).source, consumed := (decStep s).consumed, received := (decStep s).received ++ re } := by
  have hframe := congrArg encStep (decStep_frame s)
  rw [encStep_beside s _ _ _ _ _ _ _ _ he] at hframe
  -- `hframe` says `dec_signed` is that of `s`; by its frame, ENC's step keeps it.
  rw [hframe, encStep_frame s]

/-- DEC's byte step after ENC's: ENC's side is as ENC left it, and DEC's response comes last. -/
theorem decStep_encStep {s : State} {rd : List Delivery} (hd : (decStep s).received = s.received ++ rd) :
    decStep (encStep s) = { decStep s with
      encBusy := (encStep s).encBusy, encIdx := (encStep s).encIdx, encRem := (encStep s).encRem
      sink := (encStep s).sink, offers := (encStep s).offers, received := (encStep s).received ++ rd } := by
  have hframe := congrArg decStep (encStep_frame s)
  rwa [decStep_beside s _ _ _ _ _ _ _ hd] at hframe

/-- In either order the two byte steps leave the same state, but for the list of responses (R42). -/
theorem decStep_encStep_comm (s : State) :
    decStep (encStep s) = { encStep (decStep s) with received := (decStep (encStep s)).received } := by
  obtain ⟨rd, hd⟩ := decStep_received s
  obtain ⟨re, he⟩ := encStep_received s
  rw [encStep_decStep he, decStep_encStep hd, decStep_frame s, encStep_frame s]

/-- In either order each unit's own responses arrive in the same order (R85). -/
theorem responsesOf_decStep_encStep (s : State) (u : UnitName) :
    (decStep (encStep s)).responsesOf u = (encStep (decStep s)).responsesOf u := by
  obtain ⟨rd, hd⟩ := decStep_received s
  obtain ⟨re, he⟩ := encStep_received s
  have hde : (decStep (encStep s)).received = (encStep s).received ++ rd.map (⟨.dec, ·⟩) := by
    rw [decStep_encStep hd]
  have hed : (encStep (decStep s)).received = (decStep s).received ++ re.map (⟨.enc, ·⟩) := by
    rw [encStep_decStep he]
  rw [responsesOf_append hde, responsesOf_append he, responsesOf_append hed, responsesOf_append hd]
  cases u <;> simp

theorem runSteps_src_snk (s : State) (ts : List Turn) :
    runSteps 2 { s with schedule := srcTurn :: snkTurn :: ts } =
      .next { encStep (decStep s) with schedule := ts } := by
  rw [runSteps_succ 1 (step_src rfl), decStep_schedule s, runSteps_succ 0 (step_snk rfl), runSteps_zero]
  exact congrArg _ (encStep_schedule (decStep s) ts)

theorem runSteps_snk_src (s : State) (ts : List Turn) :
    runSteps 2 { s with schedule := snkTurn :: srcTurn :: ts } =
      .next { decStep (encStep s) with schedule := ts } := by
  rw [runSteps_succ 1 (step_snk rfl), encStep_schedule s, runSteps_succ 0 (step_src rfl), runSteps_zero]
  exact congrArg _ (decStep_schedule (encStep s) ts)

/-- Settles O42: the two byte steps commute, and each unit's responses arrive in its own order. -/
theorem byteStepsOfTheUnitsCommute : Obligations.ByteStepsOfTheUnitsCommute := by
  intro s ts
  refine ⟨_, _, runSteps_src_snk s ts, runSteps_snk_src s ts, ?_, responsesOf_decStep_encStep s⟩
  exact congrArg (fun t : State => { t with schedule := ts }) (decStep_encStep_comm s)

/-! ## Nothing transferred is taken back -/

/-- How the streams and the requester's records may differ from `s` to a later `t`: bytes only move from those to come to those
consumed, answers are only used up, and pushes, responses and reads are only added (R38, R39, R82). -/
def Advances (s t : State) : Prop :=
  s.consumed ++ answeredBytes s.source = t.consumed ++ answeredBytes t.source ∧
  t.source <:+ s.source ∧ s.consumed <+: t.consumed ∧
  t.sink <:+ s.sink ∧ s.offers <+: t.offers ∧ s.received <+: t.received ∧ s.taken <+: t.taken

/-- Where no byte moves, it is enough that responses and reads are only added. -/
theorem Advances.of_noTransfer {s t : State} (hsource : t.source = s.source) (hconsumed : t.consumed = s.consumed)
    (hsink : t.sink = s.sink) (hoffers : t.offers = s.offers) (hreceived : s.received <+: t.received)
    (htaken : s.taken <+: t.taken) : Advances s t :=
  ⟨by rw [hsource, hconsumed], by rw [hsource], by rw [hconsumed], by rw [hsink], by rw [hoffers], hreceived, htaken⟩

/-- A state advances to itself, and to every state that differs from it elsewhere only: `Advances` reads no other field. -/
theorem Advances.refl (s : State) : Advances s s :=
  .of_noTransfer rfl rfl rfl rfl List.prefix_rfl List.prefix_rfl

theorem Advances.trans {s t u : State} (hst : Advances s t) (htu : Advances t u) : Advances s u := by
  obtain ⟨hbytes, hsource, hconsumed, hsink, hoffers, hreceived, htaken⟩ := hst
  obtain ⟨kbytes, ksource, kconsumed, ksink, koffers, kreceived, ktaken⟩ := htu
  exact ⟨hbytes.trans kbytes, ksource.trans hsource, hconsumed.trans kconsumed, ksink.trans hsink,
    hoffers.trans koffers, hreceived.trans kreceived, htaken.trans ktaken⟩

theorem offerDec_advances (c : DecRequest) (s : State) : Advances s (offerDec c s) := by
  rcases offerDec_cases c s with ⟨_, h⟩ | ⟨_, h⟩ <;> rw [h] <;> exact Advances.refl s

theorem offerEnc_advances (c : EncRequest) (s : State) : Advances s (offerEnc c s) := by
  rcases offerEnc_cases c s with ⟨_, h⟩ | ⟨_, h⟩ <;> rw [h] <;> exact Advances.refl s

theorem acceptHeldDec_advances (k : Nat) (s : State) : Advances s (acceptHeldDec k s) := by
  rcases acceptHeldDec_cases k s with ⟨_, _, _, h⟩ | ⟨h, _⟩ <;> rw [h] <;> exact Advances.refl s

theorem acceptHeldEnc_advances (k : Nat) (s : State) : Advances s (acceptHeldEnc k s) := by
  rcases acceptHeldEnc_cases k s with ⟨_, _, _, h⟩ | ⟨h, _⟩ <;> rw [h] <;> exact Advances.refl s

theorem exec_advances {i : Instr} {s t : State} (h : exec i s = .next t) : Advances s t := by
  rcases exec_cases h with ⟨c, rfl⟩ | ⟨c, rfl⟩ | ⟨v, rfl⟩ | ⟨u, rfl⟩
  · exact offerDec_advances c s
  · exact offerEnc_advances c s
  · exact .of_noTransfer rfl rfl rfl rfl (List.prefix_append _ _) List.prefix_rfl
  · exact .of_noTransfer rfl rfl rfl rfl (List.prefix_append _ _) List.prefix_rfl

/-- A turn of the source takes nothing from the input stream, or one fault, or the one byte it consumes (R63). -/
theorem decStep_pulls (s : State) :
    ((decStep s).source = s.source ∧ (decStep s).consumed = s.consumed) ∨
    (∃ e, s.source = .fault e :: (decStep s).source ∧ (decStep s).consumed = s.consumed) ∨
    (∃ b, s.source = .byte b :: (decStep s).source ∧ (decStep s).consumed = s.consumed ++ [b]) := by
  rcases decStep_cases s with ⟨h, _⟩ | ⟨e, _, _, hs, h⟩ | ⟨b, _, _, hs, _, _, h⟩ | ⟨b, _, _, hs, _, _, h⟩ |
    ⟨b, _, _, hs, _, _, h⟩ <;> rw [h]
  · exact .inl ⟨rfl, rfl⟩
  · exact .inr (.inl ⟨e, hs, rfl⟩)
  · exact .inr (.inr ⟨b, hs, rfl⟩)
  · exact .inr (.inr ⟨b, hs, rfl⟩)
  · exact .inr (.inr ⟨b, hs, rfl⟩)

/-- A turn of the sink pushes nothing, or completes one push with the sink's next answer (R67). -/
theorem encStep_pushes (s : State) :
    ((encStep s).sink = s.sink ∧ (encStep s).offers = s.offers) ∨
    (∃ p, s.sink = p.answer :: (encStep s).sink ∧ (encStep s).offers = s.offers ++ [p]) := by
  rcases encStep_cases s with ⟨h, _⟩ | ⟨_, _, _, hs, h⟩ | ⟨_, _, hs, _, h⟩ | ⟨_, _, hs, _, h⟩ <;> rw [h]
  · exact .inl ⟨rfl, rfl⟩
  · exact .inr ⟨_, hs, rfl⟩
  · exact .inr ⟨_, hs, rfl⟩
  · exact .inr ⟨_, hs, rfl⟩

theorem decStep_advances (s : State) : Advances s (decStep s) := by
  obtain ⟨rs, hr⟩ := decStep_received s
  have hreceived : s.received <+: (decStep s).received := by rw [hr]; exact List.prefix_append _ _
  have hsink : (decStep s).sink = s.sink := by rw [decStep_frame s]
  have hoffers : (decStep s).offers = s.offers := by rw [decStep_frame s]
  have htaken : (decStep s).taken = s.taken := by rw [decStep_frame s]
  rcases decStep_pulls s with ⟨hs, hc⟩ | ⟨e, hs, hc⟩ | ⟨b, hs, hc⟩
  · exact .of_noTransfer hs hc hsink hoffers hreceived (by rw [htaken])
  · exact ⟨by rw [hs, hc]; rfl, by rw [hs]; exact List.suffix_cons _ _, by rw [hc], by rw [hsink], by rw [hoffers],
      hreceived, by rw [htaken]⟩
  · exact ⟨by rw [hs, hc, List.append_assoc]; rfl, by rw [hs]; exact List.suffix_cons _ _,
      by rw [hc]; exact List.prefix_append _ _, by rw [hsink], by rw [hoffers], hreceived, by rw [htaken]⟩

theorem encStep_advances (s : State) : Advances s (encStep s) := by
  obtain ⟨rs, hr⟩ := encStep_received s
  have hreceived : s.received <+: (encStep s).received := by rw [hr]; exact List.prefix_append _ _
  have hsource : (encStep s).source = s.source := by rw [encStep_frame s]
  have hconsumed : (encStep s).consumed = s.consumed := by rw [encStep_frame s]
  have htaken : (encStep s).taken = s.taken := by rw [encStep_frame s]
  rcases encStep_pushes s with ⟨hs, ho⟩ | ⟨p, hs, ho⟩
  · exact .of_noTransfer hsource hconsumed hs ho hreceived (by rw [htaken])
  · exact ⟨by rw [hsource, hconsumed], by rw [hsource], by rw [hconsumed], by rw [hs]; exact List.suffix_cons _ _,
      by rw [ho]; exact List.prefix_append _ _, hreceived, by rw [htaken]⟩

theorem runMove_advances {m : Move} {s t : State} (h : runMove m s = .next t) : Advances s t := by
  cases m with
  | request =>
    rcases runMove_request_cases h with rfl | ⟨i, ws, he⟩
    · exact .refl t
    · exact exec_advances (s := { s with requests := ws }) he
  | acceptDec k => cases h; exact acceptHeldDec_advances k s
  | acceptEnc k => cases h; exact acceptHeldEnc_advances k s
  | srcAnswer => cases h; exact decStep_advances s
  | snkAnswer => cases h; exact encStep_advances s
  | read k f =>
    obtain ⟨_, _, _, _, rfl⟩ := readField_next h
    exact .of_noTransfer rfl rfl rfl rfl List.prefix_rfl (List.prefix_append _ _)

/-- Settles O40: every move only advances the streams and the requester's records; beginning a turn and a reset leave them. -/
theorem noTransferIsEverUndone : Obligations.NoTransferIsEverUndone := by
  intro s t h
  exact step_keeps (P := Advances s) (fun _ _ hu => hu) (fun _ hu => hu)
    (fun _ _ _ hu hm => hu.trans (runMove_advances hm)) (Advances.refl s) h

end Sys2Proof.Machine
end

section
/-!
The command format (30_encoding.md R55 to R58, R61): the decoder code by code, the encoder against it, the opcode table by
the command code its rows fix, and the two steps that depend on the code alone.
-/

namespace Sys2Proof

/-! ## The decoder, code by code -/

theorem decode_vdecU (d : Word) : decode (0b000#3 ++ d) = .vdecU := by simp [decode, opField_append]
theorem decode_vencU (d : Word) : decode (0b001#3 ++ d) = .vencU d := by
  simp [decode, opField_append, dataField_append]
theorem decode_zzEnc (d : Word) : decode (0b010#3 ++ d) = .zzEnc d := by
  simp [decode, opField_append, dataField_append]
theorem decode_zzDec (d : Word) : decode (0b011#3 ++ d) = .zzDec d := by
  simp [decode, opField_append, dataField_append]
theorem decode_vdecS (d : Word) : decode (0b100#3 ++ d) = .vdecS := by simp [decode, opField_append]
theorem decode_vencS (d : Word) : decode (0b101#3 ++ d) = .vencS d := by
  simp [decode, opField_append, dataField_append]
theorem decode_reserved110 (d : Word) : decode (0b110#3 ++ d) = .reserved110 := by simp [decode, opField_append]
theorem decode_reserved111 (d : Word) : decode (0b111#3 ++ d) = .reserved111 := by simp [decode, opField_append]

/-- Everything the decoder can answer, with the command code and the data that lead to it. -/
theorem decode_cases (o : OpCode) (d : Word) :
    (o = 0b000#3 ∧ decode (o ++ d) = .vdecU) ∨ (o = 0b001#3 ∧ decode (o ++ d) = .vencU d) ∨
    (o = 0b010#3 ∧ decode (o ++ d) = .zzEnc d) ∨ (o = 0b011#3 ∧ decode (o ++ d) = .zzDec d) ∨
    (o = 0b100#3 ∧ decode (o ++ d) = .vdecS) ∨ (o = 0b101#3 ∧ decode (o ++ d) = .vencS d) ∨
    (o = 0b110#3 ∧ decode (o ++ d) = .reserved110) ∨ (o = 0b111#3 ∧ decode (o ++ d) = .reserved111) := by
  rcases opCode_cases o with rfl | rfl | rfl | rfl | rfl | rfl | rfl | rfl
  · simp [decode_vdecU]
  · simp [decode_vencU]
  · simp [decode_zzEnc]
  · simp [decode_zzDec]
  · simp [decode_vdecS]
  · simp [decode_vencS]
  · simp [decode_reserved110]
  · simp [decode_reserved111]

/-- The command code of the command a word decodes to is the word's (R56, R61). -/
theorem op_decode (o : OpCode) (d : Word) : (decode (o ++ d)).op = o := by
  rcases decode_cases o d with ⟨rfl, h⟩ | ⟨rfl, h⟩ | ⟨rfl, h⟩ | ⟨rfl, h⟩ | ⟨rfl, h⟩ | ⟨rfl, h⟩ | ⟨rfl, h⟩ | ⟨rfl, h⟩ <;>
    rw [h] <;> rfl

/-- The operand of the command a word decodes to is the word's data, where its code has an operand (R58, R62). -/
theorem operand_decode (o : OpCode) (d : Word) :
    (decode (o ++ d)).operand =
      if o = 0b001#3 ∨ o = 0b010#3 ∨ o = 0b011#3 ∨ o = 0b101#3 then d else 0#32 := by
  rcases decode_cases o d with ⟨rfl, h⟩ | ⟨rfl, h⟩ | ⟨rfl, h⟩ | ⟨rfl, h⟩ | ⟨rfl, h⟩ | ⟨rfl, h⟩ | ⟨rfl, h⟩ | ⟨rfl, h⟩ <;>
    rw [h] <;> rfl

theorem decode_encode (i : Instr) : decode (encode i) = i := by
  cases i with
  | vdecU => exact decode_vdecU _
  | vencU v => exact decode_vencU v
  | zzEnc v => exact decode_zzEnc v
  | zzDec u => exact decode_zzDec u
  | vdecS => exact decode_vdecS _
  | vencS v => exact decode_vencS v
  | reserved110 => exact decode_reserved110 _
  | reserved111 => exact decode_reserved111 _

/-- Settles O2: the decoder undoes the encoder case by case, and the word of a decoded command is made of its code and its
operand, which the decoder took from the word. -/
theorem decodeAndEncodeAgree : Obligations.DecodeAndEncodeAgree := by
  refine ⟨decode_encode, fun w => ?_⟩
  rw [encode, ← append_opField_dataField w, op_decode, operand_decode, opField_append, dataField_append]

/-- Settles O1: each word's two fields are computed, and its code selects the command. -/
theorem writtenOutCommandWordsDecode : Obligations.WrittenOutCommandWordsDecode := by
  simp [Obligations.WrittenOutCommandWordsDecode, decode, opField, dataField]

/-! ## The opcode table -/

/-- A row whose only fixed bits are a command code. -/
def opRow (mnemonic : String) (op : OpCode) : OpcodeRow := ⟨mnemonic, op ++ 0#32, 0b111#3 ++ 0#32⟩

theorem opcodeRows_eq : opcodeRows =
    [opRow "VDEC_U" 0b000#3, opRow "VENC_U" 0b001#3, opRow "ZZ_ENC" 0b010#3, opRow "ZZ_DEC" 0b011#3,
      opRow "VDEC_S" 0b100#3, opRow "VENC_S" 0b101#3, opRow "RESERVED" 0b110#3, opRow "RESERVED" 0b111#3] := by
  decide

/-- Such a row covers the words with its command code. -/
theorem opRow_covers (m : String) (op o : OpCode) (d : Word) : (opRow m op).covers (o ++ d) = (o == op) := by
  have hmask : (o ++ d : CommandWord) &&& (0b111#3 ++ 0#32) = o ++ 0#32 := by
    rw [BitVec.and_append, BitVec.and_zero, show (0b111#3 : OpCode) = BitVec.allOnes 3 from rfl, BitVec.and_allOnes]
  rw [Bool.eq_iff_iff, OpcodeRow.covers, beq_iff_eq, beq_iff_eq, opRow, hmask]
  refine ⟨fun h => ?_, fun h => by rw [h]⟩
  rw [← opField_append o 0#32, h, opField_append]

/-- Settles O3: the rows fix the eight command codes, one each, and a word's code selects its command. -/
theorem everyWordMatchesOneTableRow : Obligations.EveryWordMatchesOneTableRow := by
  intro w
  refine ⟨opRow (decode w).mnemonic (opField w), ?_, rfl⟩
  rw [← append_opField_dataField w, opcodeRows_eq, opField_append]
  simp only [List.filter_cons, opRow_covers]
  rcases decode_cases (opField w) (dataField w) with ⟨ho, h⟩ | ⟨ho, h⟩ | ⟨ho, h⟩ | ⟨ho, h⟩ | ⟨ho, h⟩ | ⟨ho, h⟩ | ⟨ho, h⟩ |
    ⟨ho, h⟩ <;> rw [h, ho] <;> rfl

end Sys2Proof

namespace Sys2Proof.Machine

/-! ## Steps that depend on the command code alone -/

theorem step_request {s : State} {w : CommandWord} {ws : List CommandWord} {ts : List Turn}
    (hs : s.schedule = requestTurn :: ts) (hr : s.requests = w :: ws) :
    step s = exec (decode w) { s with schedule := ts, requests := ws } :=
  (stepRunsTheDecodedCommand s ts hs).1 w ws hr

/-- Settles O4: the step runs the decoded command in a state that does not depend on the word, and the two decodes drop
the data. -/
theorem decodeCommandsIgnoreTheirData : Obligations.DecodeCommandsIgnoreTheirData := by
  intro s ws ts d d' hs
  have run (w : CommandWord) :
      step { s with requests := w :: ws } = exec (decode w) { s with schedule := ts, requests := ws } :=
    step_request (s := { s with requests := w :: ws }) hs rfl
  refine ⟨?_, ?_⟩
  · rw [run, run, decode_vdecU, decode_vdecU]
  · rw [run, run, decode_vdecS, decode_vdecS]

theorem exec_reserved110 (s : State) : exec .reserved110 s = .refused (.reservedCode 0b110#3) := rfl

theorem exec_reserved111 (s : State) : exec .reserved111 s = .refused (.reservedCode 0b111#3) := rfl

/-- Settles O14: the two reserved codes decode to their constructors, which are refused in every state. -/
theorem reservedCodesAreRefused : Obligations.ReservedCodesAreRefused := by
  refine ⟨exec_reserved110, exec_reserved111, fun s d ws ts hs => ⟨fun hr => ?_, fun hr => ?_⟩⟩
  · rw [step_request hs hr, decode_reserved110, exec_reserved110]
  · rw [step_request hs hr, decode_reserved111, exec_reserved111]

end Sys2Proof.Machine
end

section
/-!
The requester's read (70_reset_and_hazards.md R101; 10_state.md R23; 30_encoding.md R59): the three things a read of a field
can do.
-/

namespace Sys2Proof.Machine

theorem readField_notArrived {s : State} {k : Nat} (h : s.received.length ≤ k) (f : ResponseField) :
    readField k f s = .fault (.readBeforeResponse f) := by
  simp [readField, List.getElem?_eq_none h]

theorem readField_absent {s : State} {k : Nat} {d : Delivery} {f : ResponseField} (hd : s.received[k]? = some d)
    (hv : d.response.read f = none) : readField k f s = .fault (.absentField f) := by
  simp [readField, hd, hv]

theorem readField_present {s : State} {k : Nat} {d : Delivery} {f : ResponseField} {v : FieldValue}
    (hd : s.received[k]? = some d) (hv : d.response.read f = some v) :
    readField k f s = .next { s with taken := s.taken ++ [v] } := by
  simp [readField, hd, hv]

/-- Settles O45: the step is the read of the field, and a field's value is `Response.read`'s: a status its code, data and
err what the response carries. -/
theorem absentFieldsCannotBeRead : Obligations.AbsentFieldsCannotBeRead := by
  intro s k f ts hs
  have hstep : step s = readField k f { s with schedule := ts } := step_move hs
  refine ⟨fun hk => hstep.trans (readField_notArrived (by exact hk) f), fun d hd => ?_⟩
  have present {v : FieldValue} (hv : d.response.read f = some v) :
      step s = .next { s with schedule := ts, taken := s.taken ++ [v] } :=
    hstep.trans (readField_present (by exact hd) hv)
  have absent (hv : d.response.read f = none) : step s = .fault (.absentField f) :=
    hstep.trans (readField_absent (by exact hd) hv)
  have status {st : Status} (hf : f = .status) (hst : d.response.status = st) :
      step s = .next { s with schedule := ts, taken := s.taken ++ [.status st.code] } :=
    present (by rw [hf, ← hst]; rfl)
  refine ⟨status, status, status, status, ?_, ?_, ?_, ?_⟩
  · rintro rfl h; exact absent (by simp [Response.read, h])
  · rintro rfl h; exact absent (by simp [Response.read, h])
  · rintro v rfl h; exact present (by simp [Response.read, h])
  · rintro e rfl h; exact present (by simp [Response.read, h])

end Sys2Proof.Machine
end

section
/-!
The wire format (30_encoding.md R45 to R51; 40_varint.md R64): an encoded value is some bytes that say that more follow and
one that does not; its value is the number whose base-128 digits are the payloads, modulo 2^32; and what the decode loop
can do, said once.
-/

namespace Sys2Proof.Machine

/-! ## The shape of an encoded value -/

/-- A well-formed encoded value, by the bytes before the last and the last (R49). -/
theorem wellFormedEncoding_concat (cs : List Byte) (b : Byte) :
    wellFormedEncoding (cs ++ [b]) = true ↔ cs.length ≤ 4 ∧ (∀ c ∈ cs, continues c = true) ∧ continues b = false ∧
      (cs.length = 4 → fifthOverflows b = false) := by
  have hfifth (hlen : cs.length ≤ 4) : (cs ++ [b])[4]?.all (fun b => !fifthOverflows b) = true ↔
      (cs.length = 4 → fifthOverflows b = false) := by
    rcases hlen.lt_or_eq with h | h
    · simp [List.getElem?_eq_none (show (cs ++ [b]).length ≤ 4 by simp; omega), h.ne]
    · simp [← h]
  by_cases hlen : cs.length ≤ 4
  · simp only [wellFormedEncoding, Bool.and_eq_true, hfifth hlen]
    simp [Config.maxBytes, Nat.lt_succ_iff, hlen, and_assoc]
  · have hlong : ¬cs.length + 1 ≤ 5 := by omega
    simp [wellFormedEncoding, Config.maxBytes, hlen, Nat.lt_succ_iff]

/-- The malformed pattern, by the bytes before the last and the last (R50). -/
theorem malformedEncoding_concat (cs : List Byte) (b : Byte) :
    malformedEncoding (cs ++ [b]) = true ↔ cs.length = 4 ∧ (∀ c ∈ cs, continues c = true) ∧ fifthOverflows b = true := by
  by_cases hlen : cs.length = 4
  · simp [malformedEncoding, Config.maxBytes, ← hlen]
  · simp [malformedEncoding, Config.maxBytes, hlen]

/-- A byte list that passes a check the empty list fails has a last byte. -/
theorem exists_concat {p : List Byte → Bool} (hnil : p [] = false) {bs : List Byte} (h : p bs = true) :
    ∃ cs b, bs = cs ++ [b] := by
  rcases List.eq_nil_or_concat' bs with rfl | hbs
  · simp [hnil] at h
  · exact hbs

/-! ## The value of an encoded value -/

/-- The payload of an encoded byte as a number (R45). -/
def payloadNat (b : Byte) : Nat := b.toNat % 128

/-- The number whose base-128 digits are the payloads of a byte list, the first the least significant (R47). -/
def wireNat (bs : List Byte) : Nat := Nat.ofDigits 128 (bs.map payloadNat)

theorem payloadNat_lt (b : Byte) : payloadNat b < 128 := Nat.mod_lt _ (by decide)

theorem payloadNat_of_not_continues {b : Byte} (h : continues b = false) : payloadNat b = b.toNat := by
  have hlt : ¬128 ≤ b.toNat := by simp [← continues_iff, h]
  exact Nat.mod_eq_of_lt (by omega)

@[simp] theorem wireNat_nil : wireNat [] = 0 := rfl

theorem wireNat_cons (b : Byte) (bs : List Byte) : wireNat (b :: bs) = payloadNat b + 128 * wireNat bs :=
  Nat.ofDigits_cons

theorem wireNat_append (cs ds : List Byte) : wireNat (cs ++ ds) = wireNat cs + 128 ^ cs.length * wireNat ds := by
  simp [wireNat, Nat.ofDigits_append]

theorem wireNat_concat (cs : List Byte) (b : Byte) :
    wireNat (cs ++ [b]) = wireNat cs + 128 ^ cs.length * payloadNat b := by
  simp [wireNat_append, wireNat_cons]

theorem wireNat_lt (bs : List Byte) : wireNat bs < 128 ^ bs.length := by
  have hdigits : ∀ d ∈ bs.map payloadNat, d < 128 := by simpa using fun b _ => payloadNat_lt b
  simpa [wireNat] using Nat.ofDigits_lt_base_pow_length (by decide : 1 < 128) hdigits

/-- ORing the placed groups adds them, modulo 2^32: each lies above the end of the one before (R47). -/
theorem toNat_valueFrom (k : Nat) (bs : List Byte) : (valueFrom k bs).toNat = 2 ^ (7 * k) * wireNat bs % 2 ^ 32 := by
  induction bs generalizing k with
  | nil => rfl
  | cons b bs ih =>
    have hlow : 2 ^ (7 * k) * payloadNat b < 2 ^ (7 * (k + 1)) := by
      rw [show 7 * (k + 1) = 7 * k + 7 by omega, pow_add]
      exact Nat.mul_lt_mul_of_pos_left (payloadNat_lt b) (by positivity)
    have hsum : 2 ^ (7 * k) * wireNat (b :: bs) = 2 ^ (7 * (k + 1)) * wireNat bs + 2 ^ (7 * k) * payloadNat b := by
      rw [wireNat_cons]; ring
    rw [valueFrom, BitVec.toNat_or, ih, toNat_placed, hsum, Nat.two_pow_add_eq_or_of_lt hlow, Nat.or_mod_two_pow,
      Nat.lor_comm, mul_comm (2 ^ (7 * k)), payloadNat]

theorem toNat_wireValue (bs : List Byte) : (wireValue bs).toNat = wireNat bs % 2 ^ 32 := by
  simp [wireValue, toNat_valueFrom]

theorem valueFrom_append (k : Nat) (cs ds : List Byte) :
    valueFrom k (cs ++ ds) = valueFrom k cs ||| valueFrom (k + cs.length) ds := by
  induction cs generalizing k with
  | nil => simp [valueFrom]
  | cons c cs ih => simp [valueFrom, ih, BitVec.or_assoc, Nat.add_assoc, Nat.add_comm 1]

theorem wireValue_concat (cs : List Byte) (b : Byte) : wireValue (cs ++ [b]) = wireValue cs ||| placed cs.length b := by
  simp [wireValue, valueFrom_append, valueFrom]

/-- A well-formed encoded value loses no bit: four groups have 28 bits, and the fifth byte's passes the check (R48, R49). -/
theorem wireNat_lt_of_wellFormedEncoding {bs : List Byte} (h : wellFormedEncoding bs = true) : wireNat bs < 2 ^ 32 := by
  obtain ⟨cs, b, rfl⟩ := exists_concat rfl h
  obtain ⟨hlen, _, hlast, hfifth⟩ := (wellFormedEncoding_concat cs b).1 h
  rcases hlen.lt_or_eq with h3 | h4
  · calc wireNat (cs ++ [b]) < 128 ^ (cs ++ [b]).length := wireNat_lt _
      _ ≤ 128 ^ 4 := Nat.pow_le_pow_right (by decide) (by simp; omega)
      _ ≤ 2 ^ 32 := by decide
  · have hb : ¬16 ≤ b.toNat := by simp [← fifthOverflows_iff, hfifth h4]
    have hcs := wireNat_lt cs
    rw [h4] at hcs
    rw [wireNat_concat, payloadNat_of_not_continues hlast, h4]
    omega

theorem toNat_wireValue_of_wellFormedEncoding {bs : List Byte} (h : wellFormedEncoding bs = true) :
    (wireValue bs).toNat = wireNat bs := by
  rw [toNat_wireValue, Nat.mod_eq_of_lt (wireNat_lt_of_wellFormedEncoding h)]

/-- Bit `i` of the ORed groups is in the group that covers it (R47). -/
theorem getLsbD_valueFrom (k : Nat) (bs : List Byte) {i : Nat} (hi : i < 32) :
    (valueFrom k bs).getLsbD i = (decide (7 * k ≤ i) && (bs.getD (i / 7 - k) 0#8).getLsbD (i % 7)) := by
  induction bs generalizing k with
  | nil => simp [valueFrom]
  | cons b bs ih =>
    rw [valueFrom, BitVec.getLsbD_or, getLsbD_placed, ih]
    rcases Nat.lt_trichotomy (i / 7) k with h | h | h
    · have h1 : ¬7 * k ≤ i := by omega
      have h2 : ¬7 * (k + 1) ≤ i := by omega
      simp [h1, h2]
    · have h1 : 7 * k ≤ i := by omega
      have h2 : ¬7 * (k + 1) ≤ i := by omega
      have h3 : i < 7 * k + 7 := by omega
      have h4 : i - 7 * k = i % 7 := by omega
      simp [hi, h, h1, h2, h3, h4]
    · have h1 : 7 * k ≤ i := by omega
      have h2 : 7 * (k + 1) ≤ i := by omega
      have h3 : ¬i < 7 * k + 7 := by omega
      have h4 : i / 7 - k = i / 7 - (k + 1) + 1 := by omega
      simp [h1, h2, h3, h4]

/-! ## The decode loop -/

theorem decodeLoop_overflow {b : Byte} (h : fifthOverflows b = true) (acc : Word) (rest : List SrcAnswer) :
    decodeLoop 4 acc (.byte b :: rest) = some ⟨.overflow, 5⟩ := by
  simp [decodeLoop, h]

theorem decodeLoop_more {k : Nat} {b : Byte} (hk : k = 4 → fifthOverflows b = false) (hc : continues b = true)
    (acc : Word) (rest : List SrcAnswer) :
    decodeLoop k acc (.byte b :: rest) = decodeLoop (k + 1) (acc ||| placed k b) rest := by
  rw [decodeLoop, if_neg (by rintro ⟨h4, ho⟩; simp [hk h4] at ho), if_pos hc]

theorem decodeLoop_last {k : Nat} {b : Byte} (hk : k = 4 → fifthOverflows b = false) (hc : continues b = false)
    (acc : Word) (rest : List SrcAnswer) :
    decodeLoop k acc (.byte b :: rest) = some ⟨.ok (acc ||| placed k b), k + 1⟩ := by
  rw [decodeLoop, if_neg (by rintro ⟨h4, ho⟩; simp [hk h4] at ho), if_neg (by simp [hc])]

/-- The loop reads through up to four bytes that say that more follow (R64). -/
theorem decodeLoop_append {k : Nat} {cs : List Byte} (hlen : k + cs.length ≤ 4) (hcs : ∀ c ∈ cs, continues c = true)
    (acc : Word) (rest : List SrcAnswer) :
    decodeLoop k acc (cs.map .byte ++ rest) = decodeLoop (k + cs.length) (acc ||| valueFrom k cs) rest := by
  induction cs generalizing k acc with
  | nil => simp [valueFrom]
  | cons c cs ih =>
    simp only [List.length_cons] at hlen
    rw [List.map_cons, List.cons_append, decodeLoop_more (by omega) (hcs c (by simp)),
      ih (by omega) (fun d hd => hcs d (by simp [hd])), valueFrom, BitVec.or_assoc, List.length_cons,
      Nat.add_assoc, Nat.add_comm 1]

/-- Everything a decode can do: after at most four bytes that say that more follow, the source faults, the fifth byte
overflows, or a byte that passes the check ends the value (R64). -/
theorem decodeLoop_cases {k : Nat} {acc : Word} {answers : List SrcAnswer} {r : DecodeResult} (hk : k ≤ 4)
    (h : decodeLoop k acc answers = some r) :
    ∃ cs rest, (∀ c ∈ cs, continues c = true) ∧ k + cs.length ≤ 4 ∧
      ((∃ e, answers = cs.map .byte ++ .fault e :: rest ∧ r = ⟨.srcFault e, k + cs.length⟩) ∨
      (∃ b, answers = cs.map .byte ++ .byte b :: rest ∧ k + cs.length = 4 ∧ fifthOverflows b = true ∧
        r = ⟨.overflow, 5⟩) ∨
      (∃ b, answers = cs.map .byte ++ .byte b :: rest ∧ (k + cs.length = 4 → fifthOverflows b = false) ∧
        continues b = false ∧ r = ⟨.ok (acc ||| valueFrom k (cs ++ [b])), k + cs.length + 1⟩)) := by
  induction answers generalizing k acc with
  | nil => cases h
  | cons a rest ih =>
    cases a with
    | fault e => cases h; exact ⟨[], rest, by simp, hk, .inl ⟨e, rfl, rfl⟩⟩
    | byte b =>
      by_cases ho : k = 4 ∧ fifthOverflows b = true
      · obtain ⟨rfl, ho⟩ := ho
        rw [decodeLoop_overflow ho] at h
        cases h
        exact ⟨[], rest, by simp, hk, .inr (.inl ⟨b, rfl, rfl, ho, rfl⟩)⟩
      have ho' : k = 4 → fifthOverflows b = false := fun h4 => by simpa [h4] using ho
      cases hc : continues b with
      | false =>
        rw [decodeLoop_last ho' hc] at h
        cases h
        exact ⟨[], rest, by simp, hk, .inr (.inr ⟨b, rfl, ho', hc, by simp [valueFrom]⟩)⟩
      | true =>
        have hk3 : k + 1 ≤ 4 := by
          by_contra hk4
          have h4 : k = 4 := by omega
          simp [not_continues_of_not_fifthOverflows (ho' h4)] at hc
        rw [decodeLoop_more ho' hc] at h
        obtain ⟨cs, rest', hcs, hlen, hend⟩ := ih hk3 h
        have hidx : k + (b :: cs).length = k + 1 + cs.length := by simp; omega
        refine ⟨b :: cs, rest', by simpa [hc] using hcs, by omega, ?_⟩
        rw [hidx]
        rcases hend with ⟨e, rfl, rfl⟩ | ⟨c, rfl, h4, hc4, rfl⟩ | ⟨c, rfl, h4, hc', rfl⟩
        · exact .inl ⟨e, rfl, rfl⟩
        · exact .inr (.inl ⟨c, rfl, h4, hc4, rfl⟩)
        · exact .inr (.inr ⟨c, rfl, h4, hc', by simp [valueFrom, BitVec.or_assoc]⟩)

/-- A well-formed encoded value is accepted with the OR of its groups, whatever follows it (R49). -/
theorem decodeU_of_wellFormedEncoding {bs : List Byte} (h : wellFormedEncoding bs = true) (rest : List SrcAnswer) :
    decodeU (bs.map .byte ++ rest) = some ⟨.ok (wireValue bs), bs.length⟩ := by
  obtain ⟨cs, b, rfl⟩ := exists_concat rfl h
  obtain ⟨hlen, hcs, hlast, hfifth⟩ := (wellFormedEncoding_concat cs b).1 h
  rw [List.map_append, List.append_assoc, decodeU, decodeLoop_append (by omega) hcs]
  simp only [List.map_cons, List.map_nil, List.cons_append, List.nil_append, Nat.zero_add, BitVec.zero_or]
  rw [decodeLoop_last hfifth hlast, wireValue_concat, wireValue, List.length_append, List.length_singleton]

/-- The malformed pattern overflows after its five bytes, whatever follows it (R50). -/
theorem decodeU_of_malformedEncoding {bs : List Byte} (h : malformedEncoding bs = true) (rest : List SrcAnswer) :
    decodeU (bs.map .byte ++ rest) = some ⟨.overflow, 5⟩ := by
  obtain ⟨cs, b, rfl⟩ := exists_concat rfl h
  obtain ⟨hlen, hcs, hlast⟩ := (malformedEncoding_concat cs b).1 h
  rw [List.map_append, List.append_assoc, decodeU, decodeLoop_append (by omega) hcs, hlen]
  exact decodeLoop_overflow hlast _ _

/-- Settles O22: whatever the loop answers, the bytes it read are of the form that answer asks for, and it answers so on
every list of that form. -/
theorem decoderAcceptsExactlyTheWellFormed : Obligations.DecoderAcceptsExactlyTheWellFormed := by
  refine ⟨fun answers v n => ⟨fun h => ?_, ?_⟩, fun answers n => ⟨fun h => ?_, ?_⟩⟩
  · obtain ⟨cs, rest, hcs, hlen, ⟨_, _, hr⟩ | ⟨_, _, _, _, hr⟩ | ⟨b, ha, hfifth, hlast, hr⟩⟩ :=
      decodeLoop_cases (by decide) h <;> cases hr
    rw [Nat.zero_add] at hlen hfifth
    exact ⟨cs ++ [b], rest, by simp [ha], (wellFormedEncoding_concat cs b).2 ⟨hlen, hcs, hlast, hfifth⟩,
      by simp [wireValue], by simp⟩
  · rintro ⟨bs, rest, rfl, hbs, rfl, rfl⟩
    exact decodeU_of_wellFormedEncoding hbs rest
  · obtain ⟨cs, rest, hcs, hlen, ⟨_, _, hr⟩ | ⟨b, ha, h4, ho, hr⟩ | ⟨_, _, _, _, hr⟩⟩ :=
      decodeLoop_cases (by decide) h <;> cases hr
    rw [Nat.zero_add] at h4
    exact ⟨rfl, cs ++ [b], rest, by simp [ha], (malformedEncoding_concat cs b).2 ⟨h4, hcs, ho⟩⟩
  · rintro ⟨rfl, bs, rest, rfl, hbs⟩
    exact decodeU_of_malformedEncoding hbs rest

/-- Settles O23: the accepted value is the OR of the groups, read bit by bit and as a number in base 128. -/
theorem acceptedValueIsAssembledFromItsGroups : Obligations.AcceptedValueIsAssembledFromItsGroups := by
  intro bs rest hbs
  refine ⟨wireValue bs, decodeU_of_wellFormedEncoding hbs rest, fun i hi => ?_, ?_⟩
  · simp [wireValue, getLsbD_valueFrom 0 bs hi]
  · rw [toNat_wireValue_of_wellFormedEncoding hbs, wireNat, Nat.ofDigits_eq_sum_mapIdx]
    simp [List.mapIdx_eq_zipIdx_map, List.zipIdx_map, Function.comp_def, payloadNat, pow_mul]

/-- Settles O24: setting the continuation bit leaves the payload, and the group added is zero. -/
theorem nonMinimalEncodingsAreAccepted : Obligations.NonMinimalEncodingsAreAccepted := by
  intro bs last rest hlen hbs
  have hcont : ∀ b : Byte, continues (b ||| 0x80#8) = true := by decide
  have hpayload : ∀ b : Byte, payloadNat (b ||| 0x80#8) = payloadNat b := by decide
  have hsplit : bs ++ [last ||| 0x80#8, 0x00#8] = (bs ++ [last ||| 0x80#8]) ++ [0x00#8] := by simp
  obtain ⟨_, hcs, _, _⟩ := (wellFormedEncoding_concat bs last).1 hbs
  have hlong : wellFormedEncoding (bs ++ [last ||| 0x80#8, 0x00#8]) = true := by
    rw [hsplit, wellFormedEncoding_concat]
    refine ⟨by simpa using hlen, ?_, by decide, fun _ => by decide⟩
    simpa [or_imp, forall_and, hcont] using hcs
  have hvalue : wireValue (bs ++ [last ||| 0x80#8, 0x00#8]) = wireValue (bs ++ [last]) := by
    apply BitVec.eq_of_toNat_eq
    rw [toNat_wireValue, toNat_wireValue, hsplit, wireNat_concat, wireNat_concat, wireNat_concat, hpayload]
    simp [payloadNat]
  refine ⟨hlong, _, rfl, ?_, ?_⟩
  · simpa using decodeU_of_wellFormedEncoding hbs rest
  · simpa [hvalue] using decodeU_of_wellFormedEncoding hlong rest

end Sys2Proof.Machine
end

section
/-!
The canonical encoding (30_encoding.md R52, R53; 40_varint.md R68): `encodeU` writes the base-128 digits of the value, the
last of them nonzero, so that the number of bytes and the last byte follow from the value's range, and no other well-formed
encoding of the value ends so.
-/

namespace Sys2Proof.Machine

/-! ## Canonical byte lists -/

/-- `cs` and then `b` are the canonical encoding of the number `n`: every byte but the last says that more follow, the
payloads are the base-128 digits of `n`, and a last byte zero stands alone (R52). -/
def CanonicalBytes (n : Nat) (cs : List Byte) (b : Byte) : Prop :=
  (∀ c ∈ cs, continues c = true) ∧ continues b = false ∧ wireNat (cs ++ [b]) = n ∧ (cs ≠ [] → b ≠ 0#8)

theorem toNat_of_continues {b : Byte} (h : continues b = true) : b.toNat = payloadNat b + 128 := by
  have hge := (continues_iff b).1 h
  have hlt := b.isLt
  rw [payloadNat]
  omega

theorem toNat_pos_iff (b : Byte) : 0 < b.toNat ↔ b ≠ 0#8 := by
  rw [Nat.pos_iff_ne_zero, Ne, Ne, ← BitVec.toNat_inj]
  rfl

/-- The number of a canonical encoding lies between multiples of a power of 128 that its length and last byte give. -/
theorem CanonicalBytes.bounds {n : Nat} {cs : List Byte} {b : Byte} (h : CanonicalBytes n cs b) :
    128 ^ cs.length * b.toNat ≤ n ∧ n < 128 ^ cs.length * (b.toNat + 1) ∧ b.toNat < 128 ∧ (cs ≠ [] → 0 < b.toNat) := by
  obtain ⟨_, hlast, rfl, hb⟩ := h
  have hcs := wireNat_lt cs
  have hpay := payloadNat_of_not_continues hlast
  rw [wireNat_concat, hpay, Nat.mul_succ]
  exact ⟨by omega, by omega, hpay ▸ payloadNat_lt b, fun hne => (toNat_pos_iff b).2 (hb hne)⟩

theorem CanonicalBytes.last_ne_zero {n : Nat} {cs : List Byte} {b : Byte} (h : CanonicalBytes n cs b) (hn : n ≠ 0) :
    b ≠ 0#8 := by
  rintro rfl
  obtain ⟨_, hhi, _, hpos⟩ := h.bounds
  have hnil : cs = [] := by simpa using hpos
  simp [hnil] at hhi
  exact hn hhi

theorem canonicalBytes_nil (n : Nat) (b : Byte) : CanonicalBytes n [] b ↔ n < 128 ∧ b.toNat = n := by
  constructor
  · intro h
    obtain ⟨hlo, hhi, hlt, _⟩ := h.bounds
    simp only [List.length_nil, pow_zero, one_mul] at hlo hhi
    omega
  · rintro ⟨hn, rfl⟩
    have hlast : continues b = false := by rw [← Bool.not_eq_true, continues_iff]; omega
    exact ⟨by simp, hlast, by simp [wireNat_cons, payloadNat_of_not_continues hlast], by simp⟩

/-- The first byte of a longer canonical encoding is the low digit, and the others encode what is above it. -/
theorem canonicalBytes_cons (n : Nat) (c : Byte) (cs : List Byte) (b : Byte) :
    CanonicalBytes n (c :: cs) b ↔ 128 ≤ n ∧ c.toNat = n % 128 + 128 ∧ CanonicalBytes (n / 128) cs b := by
  have hlow := payloadNat_lt c
  constructor
  · rintro ⟨hcont, hlast, rfl, hb⟩
    have hb' : b ≠ 0#8 := hb (by simp)
    have hrest : CanonicalBytes (wireNat (cs ++ [b])) cs b :=
      ⟨fun d hd => hcont d (by simp [hd]), hlast, rfl, fun _ => hb'⟩
    have hpos : 0 < wireNat (cs ++ [b]) :=
      lt_of_lt_of_le (Nat.mul_pos (by positivity) ((toNat_pos_iff b).2 hb')) hrest.bounds.1
    have hc : c.toNat = payloadNat c + 128 := toNat_of_continues (hcont c (by simp))
    rw [List.cons_append, wireNat_cons]
    have hdiv : (payloadNat c + 128 * wireNat (cs ++ [b])) / 128 = wireNat (cs ++ [b]) := by omega
    exact ⟨by omega, by omega, by rwa [hdiv]⟩
  · rintro ⟨hge, hc, hrest⟩
    obtain ⟨_, hhi, _, hpos⟩ := hrest.bounds
    obtain ⟨hcont, hlast, hval, _⟩ := hrest
    have hc' : continues c = true := (continues_iff c).2 (by omega)
    refine ⟨by simpa [hc'] using hcont, hlast, ?_, fun _ => (toNat_pos_iff b).1 ?_⟩
    · rw [List.cons_append, wireNat_cons, hval, payloadNat]
      omega
    · rcases eq_or_ne cs [] with rfl | hne
      · simp only [List.length_nil, pow_zero, one_mul] at hhi
        omega
      · exact hpos hne

/-! ## What the loop writes -/

theorem encodeLoop_last {v : Word} (h : v.toNat < 128) (n : Nat) : encodeLoop (n + 1) v = [groupByte v] := by
  rw [encodeLoop_succ, if_neg (by rw [moreGroups_iff_ge]; omega)]

theorem encodeLoop_more {v : Word} (h : 128 ≤ v.toNat) (n : Nat) :
    encodeLoop (n + 1) v = groupByte v :: encodeLoop n (dropGroup v) := by
  rw [encodeLoop_succ, if_pos ((moreGroups_iff_ge v).2 h)]

/-- A canonical encoding is what the loop writes, when it has room for it (R68). -/
theorem encodeLoop_of_canonicalBytes {cs : List Byte} {b : Byte} {n : Nat} {v : Word} (hroom : cs.length ≤ n)
    (h : CanonicalBytes v.toNat cs b) : encodeLoop (n + 1) v = cs ++ [b] := by
  induction cs generalizing n v with
  | nil =>
    obtain ⟨hlt, hb⟩ := (canonicalBytes_nil _ _).1 h
    have hbyte : groupByte v = b := by
      apply BitVec.eq_of_toNat_eq
      rw [groupByte_toNat, hb]
      split <;> omega
    rw [encodeLoop_last hlt, hbyte, List.nil_append]
  | cons c cs ih =>
    obtain ⟨hge, hc, hrest⟩ := (canonicalBytes_cons _ _ _ _).1 h
    obtain ⟨n, rfl⟩ : ∃ m, n = m + 1 := ⟨n - 1, by simp at hroom; omega⟩
    have hbyte : groupByte v = c := by
      apply BitVec.eq_of_toNat_eq
      rw [groupByte_toNat, hc, if_pos hge]
    rw [encodeLoop_more hge, hbyte, ih (by simpa using hroom) (by rwa [toNat_dropGroup]), List.cons_append]

theorem canonicalBytes_groupByte {v : Word} (h : v.toNat < 128) : CanonicalBytes v.toNat [] (groupByte v) := by
  rw [canonicalBytes_nil, groupByte_toNat, if_neg (by omega)]
  exact ⟨h, Nat.mod_eq_of_lt h⟩

/-- The loop writes a canonical encoding, when it has room for every digit (R68, R69). -/
theorem encodeLoop_canonicalBytes (n : Nat) (v : Word) (hv : v.toNat < 128 ^ (n + 1)) :
    ∃ cs b, encodeLoop (n + 1) v = cs ++ [b] ∧ cs.length ≤ n ∧ CanonicalBytes v.toNat cs b := by
  induction n generalizing v with
  | zero =>
    have hlt : v.toNat < 128 := by simpa using hv
    exact ⟨[], _, encodeLoop_last hlt 0, le_rfl, canonicalBytes_groupByte hlt⟩
  | succ n ih =>
    rcases Nat.lt_or_ge v.toNat 128 with hlt | hge
    · exact ⟨[], _, encodeLoop_last hlt (n + 1), by simp, canonicalBytes_groupByte hlt⟩
    · have hdrop : (dropGroup v).toNat < 128 ^ (n + 1) := by
        rw [toNat_dropGroup]
        exact Nat.div_lt_of_lt_mul (by rwa [← pow_succ'])
      obtain ⟨cs, b, henc, hlen, hcan⟩ := ih (dropGroup v) hdrop
      refine ⟨groupByte v :: cs, b, ?_, by simpa using hlen, (canonicalBytes_cons _ _ _ _).2 ⟨hge, ?_, ?_⟩⟩
      · rw [encodeLoop_more hge, henc, List.cons_append]
      · rw [groupByte_toNat, if_pos hge]
      · rwa [← toNat_dropGroup]

/-- `encodeU` writes a canonical encoding of at most five bytes (R68, R69). -/
theorem encodeU_canonicalBytes (v : Word) :
    ∃ cs b, encodeU v = cs ++ [b] ∧ cs.length ≤ 4 ∧ CanonicalBytes v.toNat cs b :=
  encodeLoop_canonicalBytes 4 v (v.isLt.trans (by decide))

/-! ## Canonical and well-formed -/

/-- A canonical encoding of a 32-bit value is well-formed: a fifth byte above 0x0F would need more bits. -/
theorem CanonicalBytes.wellFormed {v : Word} {cs : List Byte} {b : Byte} (h : CanonicalBytes v.toNat cs b)
    (hlen : cs.length ≤ 4) : wellFormedEncoding (cs ++ [b]) = true := by
  obtain ⟨hcs, hlast, _, _⟩ := id h
  refine (wellFormedEncoding_concat cs b).2 ⟨hlen, hcs, hlast, fun h4 => ?_⟩
  have hlo := h.bounds.1
  have hv := v.isLt
  rw [h4] at hlo
  rw [← Bool.not_eq_true, fifthOverflows_iff]
  omega

/-- A well-formed encoding with a nonzero last byte is the canonical encoding of its value. -/
theorem canonicalBytes_of_wellFormedEncoding {cs : List Byte} {b : Byte} (h : wellFormedEncoding (cs ++ [b]) = true)
    (hb : b ≠ 0#8) : CanonicalBytes (wireValue (cs ++ [b])).toNat cs b := by
  obtain ⟨_, hcs, hlast, _⟩ := (wellFormedEncoding_concat cs b).1 h
  exact ⟨hcs, hlast, (toNat_wireValue_of_wellFormedEncoding h).symm, fun _ => hb⟩

/-- A canonical encoding has the canonical length: its bounds are powers of 2^7 (R52). -/
theorem CanonicalBytes.length {v : Word} {cs : List Byte} {b : Byte} (h : CanonicalBytes v.toNat cs b) :
    cs.length + 1 = canonicalLength v := by
  obtain ⟨hlo, hhi, hb, hpos⟩ := h.bounds
  have hupper : v.toNat < 2 ^ (7 * cs.length + 7) :=
    calc v.toNat < 128 ^ cs.length * (b.toNat + 1) := hhi
      _ ≤ 128 ^ cs.length * 128 := Nat.mul_le_mul_left _ hb
      _ = 2 ^ (7 * cs.length + 7) := by rw [pow_add, pow_mul]; rfl
  have hlower (hne : cs ≠ []) : 2 ^ (7 * cs.length) ≤ v.toNat :=
    calc 2 ^ (7 * cs.length) = 128 ^ cs.length * 1 := by rw [pow_mul, mul_one]; rfl
      _ ≤ 128 ^ cs.length * b.toNat := Nat.mul_le_mul_left _ (hpos hne)
      _ ≤ v.toNat := hlo
  rw [canonicalLength, bitLength]
  rcases eq_or_ne v 0#32 with rfl | hv
  · have hnil : cs = [] := by_contra fun hne => absurd (hlower hne) (by simp)
    simp [hnil]
  · have hv' : v.toNat ≠ 0 := fun h0 => hv (BitVec.eq_of_toNat_eq h0)
    have hlog := (Nat.log2_lt hv').2 hupper
    rw [if_neg hv]
    rcases eq_or_ne cs [] with rfl | hne
    · simp only [List.length_nil] at hlog ⊢
      omega
    · have hlog' := (Nat.le_log2 hv').2 (hlower hne)
      omega

/-- Settles O27: `encodeU` writes canonical bytes, they are well-formed with the value they encode, and any canonical bytes
are what `encodeU` writes. -/
theorem encoderEmitsTheOneCanonicalEncoding : Obligations.EncoderEmitsTheOneCanonicalEncoding := by
  refine ⟨fun v => ?_, rfl, fun bs hbs hlast => ?_⟩
  · obtain ⟨cs, b, henc, hlen, hcan⟩ := encodeU_canonicalBytes v
    have hwf := hcan.wellFormed hlen
    obtain ⟨_, _, hvalue, _⟩ := id hcan
    rw [henc]
    refine ⟨hwf, BitVec.eq_of_toNat_eq ?_, ?_, fun hv => ?_⟩
    · rw [toNat_wireValue_of_wellFormedEncoding hwf, hvalue]
    · rw [List.length_append, List.length_singleton, hcan.length]
    · have hb : b ≠ 0#8 := hcan.last_ne_zero fun h0 => hv (BitVec.eq_of_toNat_eq h0)
      simpa using hb
  · obtain ⟨cs, b, rfl⟩ := exists_concat rfl hbs
    have hb : b ≠ 0#8 := by simpa using hlast
    have hlen := ((wellFormedEncoding_concat cs b).1 hbs).1
    exact (encodeLoop_of_canonicalBytes hlen (canonicalBytes_of_wellFormedEncoding hbs hb)).symm

/-- Settles O28: the length of the canonical encoding bounds the value by multiples of a power of 128, so the value's range
leaves one length. -/
theorem canonicalLengthByRange : Obligations.CanonicalLengthByRange := by
  intro v
  obtain ⟨cs, b, henc, hlen, hcan⟩ := encodeU_canonicalBytes v
  obtain ⟨hlo, hhi, hb, hpos⟩ := hcan.bounds
  have hv := v.isLt
  refine ⟨b, by rw [henc, List.getLast?_concat], ?_⟩
  rw [henc, List.length_append, List.length_singleton]
  rw [Ne, ← List.length_eq_zero_iff] at hpos
  interval_cases cs.length <;> omega

end Sys2Proof.Machine
end

section
/-!
Command scripts (30_encoding.md R62; log entry 19): the number written for an operand reads back as that operand, and a line
of one or two words, none of which holds a separator, assembles to the one command it names.
-/

namespace Sys2Proof.Machine

/-! ## Operands -/

/-- A number of 32 bits is written with all its digits, and reads back. -/
theorem readNat_hexDigits {v : Nat} (hv : v < 2 ^ 32) : readNat ('0' :: 'x' :: hexDigits 8 v) = some v := by
  have hread : readDigits 16 0 (hexDigits 8 v) = some v := by
    rw [readDigits_hexDigits, Nat.zero_mul, Nat.zero_add, Nat.mod_eq_of_lt (hv.trans_le (by decide))]
  rcases hdigits : hexDigits 8 v with _ | ⟨c, cs⟩
  · simp [hexDigits] at hdigits
  · rw [readNat, ← hdigits, hread]

theorem unsignedOperand_showUnsigned (v : Word) : unsignedOperand (showUnsigned v) = .ok v := by
  have hread : readNat (showUnsigned v) = some v.toNat := readNat_hexDigits v.isLt
  simp [unsignedOperand, hread, v.isLt]

theorem readInt_minus {cs : List Char} {n : Nat} (h : readNat cs = some n) : readInt ('-' :: cs) = some (-(n : Int)) := by
  simp [readInt, h]

theorem readInt_zero {cs : List Char} {n : Nat} (h : readNat ('0' :: cs) = some n) :
    readInt ('0' :: cs) = some (n : Int) := by
  simp [readInt, h]

/-- Reading a written signed number gives its value: the magnitude, negated where the minus sign stands. -/
theorem readInt_showSigned (v : Word) : readInt (showSigned v) = some v.toInt := by
  have hmag : v.toInt.natAbs < 2 ^ 32 := by have := v.toInt_lt; have := v.le_toInt; omega
  have hread := readNat_hexDigits hmag
  rw [showSigned, s32]
  split
  next hneg =>
    rw [readInt_minus hread, Option.some.injEq]
    omega
  next hpos =>
    rw [readInt_zero hread, Option.some.injEq]
    omega

theorem signedOperand_showSigned (v : Word) : signedOperand (showSigned v) = .ok v := by
  have hlo := v.le_toInt
  have hhi := v.toInt_lt
  rw [signedOperand, readInt_showSigned]
  simp only [if_pos (And.intro hlo hhi), BitVec.ofInt_toInt]

/-! ## Words of a line -/

/-- A character that ends neither a word, nor a line, nor the text before a comment. -/
def plainChar (c : Char) : Bool := c != ' ' && c != '\t' && c != '\n' && c != ';'

/-- A word of a script line: a nonempty text of plain characters. -/
def plainWord (l : List Char) : Bool := l != [] && l.all plainChar

theorem plainWord_iff (l : List Char) : plainWord l = true ↔ l ≠ [] ∧ ∀ c ∈ l, plainChar c = true := by
  simp [plainWord]

theorem not_blank_of_plainChar {c : Char} (h : plainChar c = true) : (c == ' ' || c == '\t') = false := by
  simp only [plainChar, Bool.and_eq_true, bne_iff_ne] at h
  simp [h]

theorem not_lineEnd_of_plainChar {c : Char} (h : plainChar c = true) : c ≠ '\n' ∧ c ≠ ';' := by
  simp only [plainChar, Bool.and_eq_true, bne_iff_ne] at h
  simp [h]

theorem plainChar_of_mem_hexDigits {n v : Nat} {c : Char} (h : c ∈ hexDigits n v) : plainChar c = true := by
  have hdigit : ∀ d, d < 16 → plainChar (hexChar d) = true := by decide
  obtain ⟨d, hd, rfl⟩ := mem_hexDigits h
  exact hdigit d hd

theorem plainWord_showUnsigned (v : Word) : plainWord (showUnsigned v) = true := by
  have hlead : plainChar '0' = true ∧ plainChar 'x' = true := by decide
  rw [showUnsigned, plainWord_iff]
  simpa [hlead] using fun c => plainChar_of_mem_hexDigits

theorem plainWord_showSigned (v : Word) : plainWord (showSigned v) = true := by
  have hlead : plainChar '-' = true ∧ plainChar '0' = true ∧ plainChar 'x' = true := by decide
  rw [showSigned, plainWord_iff]
  split <;> simpa [hlead] using fun c => plainChar_of_mem_hexDigits

/-- A nonempty text without separators, and then a separator, is cut there. -/
theorem splitPieces_separator {separator : Char → Bool} {s : Char} (hs : separator s = true) (l cur m : List Char)
    (h : ∀ c ∈ l, separator c = false) (hne : cur ++ l ≠ []) :
    splitPieces separator cur (l ++ s :: m) = (cur.reverse ++ l) :: splitPieces separator [] m := by
  induction l generalizing cur with
  | nil => simp at hne; simp [splitPieces, hs, hne]
  | cons c cs ih =>
    rw [List.cons_append, splitPieces, if_neg (by simp [h c]), ih _ (fun d hd => h d (by simp [hd])) (by simp)]
    simp

/-! ## Lines -/

/-- A text of one line without a comment, cut at its blanks into a mnemonic and arguments, assembles to the word of their
command. -/
theorem assemble_line {line m : List Char} {args : List (List Char)} {i : Instr} (hne : line ≠ [])
    (hplain : ∀ c ∈ line, c ≠ '\n' ∧ c ≠ ';')
    (hsplit : splitPieces (fun c => c == ' ' || c == '\t') [] line = m :: args) (hi : scriptCommand m args = .ok i) :
    assemble line = .ok [encode i] := by
  have hlines : splitPieces (· == '\n') [] line = [line] :=
    splitPieces_plain _ _ _ (fun c hc => by simpa using (hplain c hc).1) (by simpa using hne)
  have hcomment : line.takeWhile (· != ';') = line :=
    List.takeWhile_eq_self_iff.2 fun c hc => by simpa using (hplain c hc).2
  rw [assemble, hlines, assembleLines, hcomment, hsplit]
  simp [hi, assembleLines]

theorem assemble_plain {m : List Char} {i : Instr} (hm : plainWord m = true) (hi : scriptCommand m [] = .ok i) :
    assemble m = .ok [encode i] := by
  obtain ⟨hne, hm⟩ := (plainWord_iff m).1 hm
  have hsplit := splitPieces_plain _ m [] (fun c hc => not_blank_of_plainChar (hm c hc)) (by simpa using hne)
  exact assemble_line hne (fun c hc => not_lineEnd_of_plainChar (hm c hc)) hsplit hi

theorem assemble_operand {m a : List Char} {i : Instr} (hm : plainWord m = true) (ha : plainWord a = true)
    (hi : scriptCommand m [a] = .ok i) : assemble (m ++ ' ' :: a) = .ok [encode i] := by
  obtain ⟨hmne, hm⟩ := (plainWord_iff m).1 hm
  obtain ⟨hane, ha⟩ := (plainWord_iff a).1 ha
  refine assemble_line (by simp) (fun c hc => ?_) ?_ hi
  · rcases List.mem_append.1 hc with hc | hc
    · exact not_lineEnd_of_plainChar (hm c hc)
    · rcases List.mem_cons.1 hc with rfl | hc
      · decide
      · exact not_lineEnd_of_plainChar (ha c hc)
  · rw [splitPieces_separator (by decide) m [] a (fun c hc => not_blank_of_plainChar (hm c hc)) (by simpa using hmne),
      splitPieces_plain _ _ _ (fun c hc => not_blank_of_plainChar (ha c hc)) (by simpa using hane)]
    rfl

/-! ## Commands -/

theorem scriptCommand_vencU (args : List (List Char)) :
    scriptCommand nameVencU args = operandCommand unsignedOperand .vencU args := rfl

theorem scriptCommand_zzEnc (args : List (List Char)) :
    scriptCommand nameZzEnc args = operandCommand signedOperand .zzEnc args := rfl

theorem scriptCommand_zzDec (args : List (List Char)) :
    scriptCommand nameZzDec args = operandCommand unsignedOperand .zzDec args := rfl

theorem scriptCommand_vencS (args : List (List Char)) :
    scriptCommand nameVencS args = operandCommand signedOperand .vencS args := rfl

theorem operandCommand_singleton {read : List Char → Except ScriptError Word} {a : List Char} {v : Word}
    (h : read a = .ok v) (make : Word → Instr) : operandCommand read make [a] = .ok (make v) := by
  simp [operandCommand, h]

/-- The line of a command with an unsigned operand. -/
theorem assemble_unsigned {m : List Char} {make : Word → Instr} (hm : plainWord m = true)
    (hc : ∀ args, scriptCommand m args = operandCommand unsignedOperand make args) (v : Word) :
    assemble (m ++ ' ' :: showUnsigned v) = .ok [encode (make v)] :=
  assemble_operand hm (plainWord_showUnsigned v)
    ((hc _).trans (operandCommand_singleton (unsignedOperand_showUnsigned v) make))

/-- The line of a command with a signed operand. -/
theorem assemble_signed {m : List Char} {make : Word → Instr} (hm : plainWord m = true)
    (hc : ∀ args, scriptCommand m args = operandCommand signedOperand make args) (v : Word) :
    assemble (m ++ ' ' :: showSigned v) = .ok [encode (make v)] :=
  assemble_operand hm (plainWord_showSigned v)
    ((hc _).trans (operandCommand_singleton (signedOperand_showSigned v) make))

/-- Settles O7: each line written is its mnemonic alone, or its mnemonic and an operand that reads back. -/
theorem scriptLinesAssembleToTheirWords : Obligations.ScriptLinesAssembleToTheirWords := by
  intro i line h
  cases i with
  | vdecU => cases h; exact assemble_plain (by decide) rfl
  | vencU v => cases h; exact assemble_unsigned (by decide) scriptCommand_vencU v
  | zzEnc v => cases h; exact assemble_signed (by decide) scriptCommand_zzEnc v
  | zzDec u => cases h; exact assemble_unsigned (by decide) scriptCommand_zzDec u
  | vdecS => cases h; exact assemble_plain (by decide) rfl
  | vencS v => cases h; exact assemble_signed (by decide) scriptCommand_vencS v
  | reserved110 => cases h
  | reserved111 => cases h

end Sys2Proof.Machine
end

section
/-!
The unsigned varint commands, acceptance and byte step (40_varint.md R63, R67): a turn of the source or sink is one byte
step of its unit, whose ends Laws/Ops gives.
-/

namespace Sys2Proof.Machine

/-! ## Acceptance -/

theorem exec_vdecU_idle {s : State} (h : s.decBusy = false) : exec .vdecU s = .next (acceptDec .vdecU s) :=
  congrArg _ (offerDec_idle h .vdecU)

theorem exec_vdecS_idle {s : State} (h : s.decBusy = false) : exec .vdecS s = .next (acceptDec .vdecS s) :=
  congrArg _ (offerDec_idle h .vdecS)

theorem exec_vencU_idle {s : State} (h : s.encBusy = false) (v : Word) :
    exec (.vencU v) s = .next (acceptEnc (.vencU v) s) :=
  congrArg _ (offerEnc_idle h (.vencU v))

theorem exec_vencS_idle {s : State} (h : s.encBusy = false) (v : Word) :
    exec (.vencS v) s = .next (acceptEnc (.vencS v) s) :=
  congrArg _ (offerEnc_idle h (.vencS v))

/-! ## The byte steps, one by one -/

/-- The fifth-byte check with its mask written out (R48; C1). -/
theorem fifthOverflows_iff_mask (b : Byte) : fifthOverflows b = true ↔ b &&& 0xF0#8 ≠ 0#8 := bne_iff_ne

/-- Settles O8: the turn is DEC's byte step, and each clause is one of that step's ends. -/
theorem vdecUReadsByteByByte : Obligations.VdecUReadsByteByByte := by
  refine ⟨decode_vdecU, fun s => exec_vdecU_idle, fun s ts hb hts => ?_⟩
  rw [step_src hts, decStep_schedule]
  simp only [← fifthOverflows_iff_mask]
  refine ⟨fun e rest hs => ?_, fun b rest hs hi ho => ?_, fun b rest hs ho hc => ?_, fun b rest hs ho hc hu => ?_,
    fun b rest hs ho hc hu => ?_⟩
  · rw [decStep_fault hb hs]
  · rw [decStep_overflow hb hs hi ho]
  · rw [decStep_continues hb hs ho hc]; rfl
  · rw [decStep_ends hb hs ho hc]
    simp [hu, decResult, placed, payload]
  · rw [decStep_ends hb hs ho hc]
    simp [hu, decResult, placed, payload]

theorem groupByte_of_moreGroups {rem : Word} {c : Bool} (h : moreGroups rem = c) :
    groupByte rem = BitVec.ofBool c ++ lowGroup rem := by
  rw [groupByte, h]

/-- Settles O9: the turn is ENC's byte step, and each clause is one of that step's ends. -/
theorem vencUWritesByteByByte : Obligations.VencUWritesByteByByte := by
  refine ⟨decode_vencU, fun s v h => exec_vencU_idle h v, fun s ts hb hts => ?_⟩
  rw [step_snk hts, encStep_schedule]
  refine ⟨fun e rest hs => ?_, fun rest hs hm => ?_, fun rest hs hm => ?_⟩
  · rw [encStep_fault hb hs]; rfl
  · have hm' : moreGroups s.encRem = false := bne_eq_false_iff_eq.2 hm
    rw [encStep_ends hb hs hm', groupByte_of_moreGroups hm']; rfl
  · have hm' : moreGroups s.encRem = true := (moreGroups_iff _).2 hm
    rw [encStep_continues hb hs hm', groupByte_of_moreGroups hm']; rfl

end Sys2Proof.Machine
end

section
/-!
A whole decode (40_varint.md R63 to R66; 41_zigzag_signed.md R74): the byte steps of DEC follow the loop of `decodeU`,
one answer of the source at a time; and what has been pulled, consumed and answered after any number of them.
-/

namespace Sys2Proof.Machine

/-! ## From acceptance to the response -/

/-- DEC's operation ended after `n` pulls with the response `resp`; the working registers, dead now, hold `idx` and
`acc`. -/
def State.decodeEnded (s : State) (n : Nat) (idx : BitVec 3) (acc : Word) (resp : Response) : State :=
  { s with
    decBusy := false, decIdx := idx, decAcc := acc
    source := s.source.drop n
    consumed := s.consumed ++ answeredBytes (s.source.take n)
    received := s.received ++ [⟨.dec, resp⟩] }

/-- A pull that makes DEC idle and brings the response ends the operation. -/
theorem decStep_iterate_one {s : State} {a : SrcAnswer} {rest : List SrcAnswer} {resp : Response}
    (hs : s.source = a :: rest)
    (h : decStep s = { s with
      decBusy := false, source := rest, consumed := s.consumed ++ answeredBytes [a]
      received := s.received ++ [⟨.dec, resp⟩] }) :
    decStep^[1] s = s.decodeEnded 1 s.decIdx s.decAcc resp := by
  simp [h, State.decodeEnded, hs]

/-- DEC's byte steps follow the loop of `decodeU` from the group index and the accumulator that DEC holds (R63, R64). -/
theorem decStep_iterate_of_decodeLoop {answers : List SrcAnswer} {k : Nat} {s : State} {r : DecodeResult} (hk : k ≤ 4)
    (hb : s.decBusy = true) (hi : s.decIdx.toNat = k) (hs : s.source = answers)
    (h : decodeLoop k s.decAcc answers = some r) :
    ∃ n idx acc, r.pulls = k + n ∧
      decStep^[n] s = s.decodeEnded n idx acc (r.outcome.response s.decSigned) := by
  induction answers generalizing k s with
  | nil => cases h
  | cons a rest ih =>
    cases a with
    | fault e =>
      cases h
      exact ⟨1, _, _, rfl,
        decStep_iterate_one hs (by simp [decStep_fault hb hs, answeredBytes, DecodeOutcome.response])⟩
    | byte b =>
      by_cases ho : s.decIdx = 4#3 ∧ fifthOverflows b = true
      · obtain ⟨hi4, ho⟩ := ho
        obtain rfl : k = 4 := by simp [← hi, hi4]
        rw [decodeLoop_overflow ho] at h
        cases h
        exact ⟨1, _, _, rfl, decStep_iterate_one hs (decStep_overflow hb hs hi4 ho)⟩
      have ho' : k = 4 → fifthOverflows b = false := fun h4 => by
        have hi4 : s.decIdx = 4#3 := BitVec.eq_of_toNat_eq (hi.trans h4)
        simpa [hi4] using ho
      cases hc : continues b with
      | false =>
        rw [decodeLoop_last ho' hc] at h
        cases h
        subst hi
        exact ⟨1, _, _, rfl, decStep_iterate_one hs (decStep_ends hb hs ho hc)⟩
      | true =>
        obtain ⟨hsucc, hi3⟩ := decIdx_succ (hi.trans_le hk) ho hc
        rw [decodeLoop_more ho' hc] at h
        have hstep := decStep_continues hb hs ho hc
        rw [hi] at hstep hsucc hi3
        obtain ⟨n, idx, acc, hpulls, hrun⟩ := ih (s := decStep s) (Nat.succ_le_succ hi3) (by rw [hstep]; exact hb)
          (by rw [hstep]; exact hsucc) (by rw [hstep]) (by rw [hstep]; exact h)
        refine ⟨n + 1, idx, acc, by omega, ?_⟩
        rw [Function.iterate_succ_apply, hrun, hstep]
        simp [State.decodeEnded, hs, answeredBytes]

/-- A whole decode from its acceptance, by as many turns of the source as `decodeU` makes pulls (R63, R64, R74). -/
theorem runSteps_acceptDec (c : DecRequest) {s : State} {r : DecodeResult} (ts : List Turn)
    (h : decodeU s.source = some r) :
    ∃ idx acc, runSteps r.pulls { acceptDec c s with schedule := List.replicate r.pulls srcTurn ++ ts } =
      .next { (acceptDec c s).decodeEnded r.pulls idx acc (r.outcome.response (acceptDec c s).decSigned) with
        schedule := ts } := by
  obtain ⟨n, idx, acc, hpulls, hrun⟩ :=
    decStep_iterate_of_decodeLoop (s := acceptDec c s) (Nat.zero_le 4) rfl rfl rfl h
  rw [Nat.zero_add] at hpulls
  exact ⟨idx, acc, by rw [runSteps_srcTurns, hpulls, hrun]⟩

/-- Settles O20: an idle DEC accepts, and the byte steps then follow the loop of `decodeU` from group index 0. -/
theorem decodeRunComputesDecodeU : Obligations.DecodeRunComputesDecodeU := by
  intro s ts r hb h
  obtain ⟨idx, acc, hU⟩ := runSteps_acceptDec .vdecU ts h
  obtain ⟨idx', acc', hS⟩ := runSteps_acceptDec .vdecS ts h
  refine ⟨⟨_, idx, acc, exec_vdecU_idle hb, ?_⟩, ⟨_, idx', acc', exec_vdecS_idle hb, ?_⟩⟩
  · rw [hU, hb]; rfl
  · rw [hS, hb]; rfl

/-! ## How far a decode has come -/

/-- What `u` is to the state `s` at a decode's acceptance, after some turns of the source: the decode is in flight after
the bytes `bs`, or a further byte or a fault of the source has ended it (R65, R66). -/
inductive DecodeProgress (s u : State) : Prop where
  | inFlight (bs : List Byte) (source : s.source = bs.map .byte ++ u.source) (busy : u.decBusy = true)
      (idx : u.decIdx.toNat = bs.length) (room : bs.length ≤ 4) (consumed : u.consumed = s.consumed ++ bs)
      (received : u.received = s.received)
  | endedByByte (bs : List Byte) (b : Byte) (resp : Response) (source : s.source = (bs ++ [b]).map .byte ++ u.source)
      (idle : u.decBusy = false) (idx : u.decIdx.toNat = bs.length) (room : bs.length ≤ 4)
      (consumed : u.consumed = s.consumed ++ (bs ++ [b])) (received : u.received = s.received ++ [⟨.dec, resp⟩])
      (status : resp.status = .ok ∨ resp.status = .overflow)
  | endedByFault (bs : List Byte) (e : FaultValue) (source : s.source = (bs.map .byte ++ [.fault e]) ++ u.source)
      (idle : u.decBusy = false) (idx : u.decIdx.toNat = bs.length) (room : bs.length ≤ 4)
      (consumed : u.consumed = s.consumed ++ bs)
      (received : u.received = s.received ++ [⟨.dec, ⟨.srcFault, none, some e⟩⟩])

theorem decodeProgress_acceptDec (c : DecRequest) (s : State) : DecodeProgress s (acceptDec c s) :=
  .inFlight [] rfl rfl rfl (Nat.zero_le 4) (by simp) rfl

/-- A turn of the source takes a decode in flight one byte on or ends it, and leaves an ended one. -/
theorem DecodeProgress.after_decStep {s u : State} (h : DecodeProgress s u) : DecodeProgress s (decStep u) := by
  cases h with
  | inFlight bs source busy idx room consumed received =>
    rcases decStep_cases u with ⟨hstep, _⟩ | ⟨e, rest, _, hs, hstep⟩ | ⟨b, rest, _, hs, _, _, hstep⟩ |
      ⟨b, rest, _, hs, ho, hc, hstep⟩ | ⟨b, rest, _, hs, _, _, hstep⟩ <;> rw [hstep]
    · exact .inFlight bs source busy idx room consumed received
    · exact .endedByFault bs e (by simp [source, hs]) rfl idx room consumed (by simp [received])
    · exact .endedByByte bs b _ (by simp [source, hs]) rfl idx room (by simp [consumed])
        (congrArg (· ++ [_]) received) (.inr rfl)
    · obtain ⟨hsucc, hi3⟩ := decIdx_succ (idx.trans_le room) ho hc
      exact .inFlight (bs ++ [b]) (by simp [source, hs]) busy (by simp [hsucc, idx])
        (by simpa [idx] using Nat.lt_succ_of_le hi3) (by simp [consumed]) received
    · exact .endedByByte bs b _ (by simp [source, hs]) rfl idx room (by simp [consumed])
        (congrArg (· ++ [_]) received) (.inl rfl)
  | endedByByte bs b resp source idle idx room consumed received status =>
    rw [decStep_idle idle]
    exact .endedByByte bs b resp source idle idx room consumed received status
  | endedByFault bs e source idle idx room consumed received =>
    rw [decStep_idle idle]
    exact .endedByFault bs e source idle idx room consumed received

theorem DecodeProgress.after_iterate {s u : State} (h : DecodeProgress s u) (n : Nat) :
    DecodeProgress s (decStep^[n] u) :=
  Function.Iterate.rec (DecodeProgress s) h (fun _ => DecodeProgress.after_decStep) n

/-- The progress of a decode does not depend on the turns to come. -/
theorem DecodeProgress.with_schedule {s u : State} (h : DecodeProgress s u) (ts : List Turn) :
    DecodeProgress s { u with schedule := ts } := by
  cases h with
  | inFlight bs source busy idx room consumed received =>
    exact .inFlight bs source busy idx room consumed received
  | endedByByte bs b resp source idle idx room consumed received status =>
    exact .endedByByte bs b resp source idle idx room consumed received status
  | endedByFault bs e source idle idx room consumed received =>
    exact .endedByFault bs e source idle idx room consumed received

/-- Settles O21: acceptance begins the progress of a decode, and every turn of the source keeps it. -/
theorem decodeConsumesOneBytePerGroup : Obligations.DecodeConsumesOneBytePerGroup := by
  intro i n s t u hi hb hexec hrun
  have hstart : DecodeProgress s t := by
    rcases hi with rfl | rfl
    · rw [exec_vdecU_idle hb] at hexec; cases hexec; exact decodeProgress_acceptDec _ s
    · rw [exec_vdecS_idle hb] at hexec; cases hexec; exact decodeProgress_acceptDec _ s
  have hprogress : DecodeProgress s u := by
    have hend := runSteps_srcTurns n t []
    rw [List.append_nil, hrun] at hend
    cases hend
    exact (hstart.after_iterate n).with_schedule []
  cases hprogress with
  | inFlight bs source busy idx room consumed received =>
    exact ⟨bs.map .byte, source, by rw [List.length_map]; omega, by omega,
      fun _ => ⟨received, by simpa using idx, bs, rfl, consumed⟩, fun idle => by simp [busy] at idle⟩
  | endedByByte bs b resp source idle idx room consumed received status =>
    have hfault : resp.status ≠ .srcFault ∧ resp.status ≠ .sinkFault := by
      rcases status with h | h <;> simp [h]
    exact ⟨(bs ++ [b]).map .byte, source, by simpa using Nat.lt_succ_of_le room, by omega,
      fun busy => by simp [idle] at busy,
      fun _ => ⟨by simp, resp, received, fun _ => ⟨_, rfl, consumed⟩, fun h => absurd h hfault.1, hfault.2⟩⟩
  | endedByFault bs e source idle idx room consumed received =>
    exact ⟨bs.map .byte ++ [.fault e], source, by simpa using Nat.lt_succ_of_le room, by omega,
      fun busy => by simp [idle] at busy,
      fun _ => ⟨by simp, _, received, fun h => by simp at h, fun _ => ⟨bs, e, rfl, consumed, rfl⟩, by simp⟩⟩

end Sys2Proof.Machine
end

section
/-!
Whole encodes (40_varint.md R67 to R69) and the round trip between encoder and decoder (R70).
-/

namespace Sys2Proof.Machine

/-! ## Offering bytes to the sink -/

/-- An acknowledged byte is the first push, and the others are offered to the answers that follow (R69). -/
theorem pushAll_ack {b : Byte} {bs : List Byte} {rest : List SnkAnswer} {r : EncodeResult}
    (h : pushAll (b :: bs) (.ack :: rest) = some r) :
    ∃ r', pushAll bs rest = some r' ∧ r = ⟨r'.outcome, ⟨b, .ack⟩ :: r'.pushes⟩ := by
  rw [pushAll] at h
  cases hr : pushAll bs rest with
  | none => rw [hr] at h; cases h
  | some r' => rw [hr] at h; cases h; exact ⟨r', rfl, rfl⟩

/-- When the sink fails, the bytes it has acknowledged are those before the one it refused (R69). -/
theorem pushAll_sinkFault {bs : List Byte} {answers : List SnkAnswer} {e : FaultValue} {pushes : List Push}
    (h : pushAll bs answers = some ⟨.sinkFault e, pushes⟩) :
    ∃ b rest, bs = acknowledged pushes ++ b :: rest ∧
      pushes = (acknowledged pushes).map (⟨·, .ack⟩) ++ [⟨b, .fault e⟩] := by
  induction bs generalizing answers pushes with
  | nil => cases h
  | cons b bs ih =>
    rcases answers with _ | ⟨_ | e', answers⟩
    · cases h
    · obtain ⟨⟨_, pushes'⟩, hrest, hr⟩ := pushAll_ack h
      cases hr
      obtain ⟨c, rest, hbs, hpushes⟩ := ih hrest
      exact ⟨c, rest, by simpa [acknowledged] using hbs, by simpa [acknowledged] using hpushes⟩
    · cases h
      exact ⟨b, bs, rfl, rfl⟩

/-- Settles O30: the byte the sink refused stands after the acknowledged ones, so none of them is the last byte of the
encoding, the only one that ends a value. -/
theorem sinkFaultLeavesADanglingPrefix : Obligations.SinkFaultLeavesADanglingPrefix := by
  intro v answers e pushes h
  obtain ⟨b, rest, hbytes, hpushes⟩ := pushAll_sinkFault h
  obtain ⟨cs, last, henc, _, hcs, _⟩ := encodeU_canonicalBytes v
  have hbefore : cs = acknowledged pushes ++ (b :: rest).dropLast := by
    rw [← List.dropLast_append_of_ne_nil (List.cons_ne_nil b rest), ← hbytes, henc, List.dropLast_concat]
  exact ⟨fun c hc => hcs c (by rw [hbefore]; exact List.mem_append_left _ hc), b, rest, hbytes, hpushes⟩

/-! ## A whole encode -/

/-- ENC's operation ended with the pushes of `r`; the working registers, dead now, hold `idx` and `rem`. -/
def State.encodeEnded (s : State) (r : EncodeResult) (idx : BitVec 3) (rem : Word) : State :=
  { s with
    encBusy := false, encIdx := idx, encRem := rem
    sink := s.sink.drop r.pushes.length
    offers := s.offers ++ r.pushes
    received := s.received ++ [⟨.enc, r.outcome.response⟩] }

/-- A push that makes ENC idle and brings the response ends the operation. -/
theorem encStep_iterate_one {s : State} {a : SnkAnswer} {rest : List SnkAnswer} {b : Byte} {out : EncodeOutcome}
    (hs : s.sink = a :: rest)
    (h : encStep s = { s with
      encBusy := false, sink := rest, offers := s.offers ++ [⟨b, a⟩]
      received := s.received ++ [⟨.enc, out.response⟩] }) :
    encStep^[1] s = s.encodeEnded ⟨out, [⟨b, a⟩]⟩ s.encIdx s.encRem := by
  simp [h, State.encodeEnded, hs]

/-- ENC's byte steps offer the bytes that the loop of `encodeU` writes for the remaining value, when it has room for
every group (R67 to R69). -/
theorem encStep_iterate_of_encodeLoop {n : Nat} {s : State} {r : EncodeResult} (hb : s.encBusy = true)
    (hroom : s.encRem.toNat < 128 ^ n) (hn : n ≠ 0) (h : pushAll (encodeLoop n s.encRem) s.sink = some r) :
    ∃ idx rem, encStep^[r.pushes.length] s = s.encodeEnded r idx rem := by
  induction n generalizing s r with
  | zero => exact absurd rfl hn
  | succ n ih =>
    rw [encodeLoop_succ] at h
    rcases hs : s.sink with _ | ⟨_ | e, rest⟩ <;> rw [hs] at h
    · cases h
    · obtain ⟨r', hrest, rfl⟩ := pushAll_ack h
      cases hm : moreGroups s.encRem with
      | false =>
        rw [if_neg (by simp [hm])] at hrest
        cases hrest
        exact ⟨_, _, encStep_iterate_one hs (encStep_ends hb hs hm)⟩
      | true =>
        rw [if_pos hm] at hrest
        have hge := (moreGroups_iff_ge _).1 hm
        have hstep := encStep_continues hb hs hm
        have hn' : n ≠ 0 := by rintro rfl; omega
        have hroom' : (dropGroup s.encRem).toNat < 128 ^ n := by
          rw [toNat_dropGroup]
          exact Nat.div_lt_of_lt_mul (by rwa [← pow_succ'])
        obtain ⟨idx, rem, hrun⟩ := ih (s := encStep s) (by rw [hstep]; exact hb) (by rw [hstep]; exact hroom') hn'
          (by rw [hstep]; exact hrest)
        refine ⟨idx, rem, ?_⟩
        rw [List.length_cons, Function.iterate_succ_apply, hrun, hstep]
        simp [State.encodeEnded, hs]
    · cases h
      exact ⟨_, _, encStep_iterate_one hs (encStep_fault hb hs)⟩

/-- A whole encode from its acceptance, by as many turns of the sink as pushes are made (R67 to R69, R75). -/
theorem runSteps_acceptEnc (c : EncRequest) {s : State} {r : EncodeResult} (ts : List Turn)
    (h : pushAll (encodeU c.start) s.sink = some r) :
    ∃ idx rem, runSteps r.pushes.length
      { acceptEnc c s with schedule := List.replicate r.pushes.length snkTurn ++ ts } =
      .next { (acceptEnc c s).encodeEnded r idx rem with schedule := ts } := by
  have hroom : (acceptEnc c s).encRem.toNat < 128 ^ 5 := (BitVec.isLt _).trans (by decide)
  obtain ⟨idx, rem, hrun⟩ := encStep_iterate_of_encodeLoop (s := acceptEnc c s) rfl hroom (by decide) h
  exact ⟨idx, rem, by rw [runSteps_snkTurns, hrun]⟩

/-- Settles O25: an idle ENC accepts, and the byte steps then offer what the loop of `encodeU` writes, with room for
five groups. -/
theorem encodeRunPushesEncodeU : Obligations.EncodeRunPushesEncodeU := by
  intro s ts v hb
  refine ⟨fun r h => ?_, fun r h => ?_⟩
  · obtain ⟨idx, rem, hrun⟩ := runSteps_acceptEnc (.vencU v) ts h
    exact ⟨_, idx, rem, exec_vencU_idle hb v, by rw [hrun, hb]; rfl⟩
  · obtain ⟨idx, rem, hrun⟩ := runSteps_acceptEnc (.vencS v) ts h
    exact ⟨_, idx, rem, exec_vencS_idle hb v, by rw [hrun, hb]; rfl⟩

/-! ## Room, and the round trip -/

/-- Settles O26: `encodeU` writes a canonical encoding of at most five bytes, and with more room the loop writes the
same canonical encoding. -/
theorem fiveGroupsAlwaysSuffice : Obligations.FiveGroupsAlwaysSuffice := by
  intro n v
  obtain ⟨cs, b, henc, hlen, hcan⟩ := encodeU_canonicalBytes v
  obtain ⟨_, hlast, _, _⟩ := id hcan
  rw [continues] at hlast
  refine ⟨?_, by simpa [henc] using Nat.lt_succ_of_le hlen, ?_⟩
  · rw [henc, show 5 + n = (4 + n) + 1 by omega, encodeLoop_of_canonicalBytes (by omega) hcan]
  · rw [henc, List.getLast?_concat, Option.any_some, hlast, Bool.not_false]

/-- A well-formed encoding as short as the canonical one does not end in a group of zeros put off: without that group
the value would lie below every number of its canonical length. -/
theorem last_ne_zero_of_canonicalLength {cs : List Byte} {b : Byte} (h : wellFormedEncoding (cs ++ [b]) = true)
    (hlen : (cs ++ [b]).length = canonicalLength (wireValue (cs ++ [b]))) (hcs : cs ≠ []) : b ≠ 0#8 := by
  rintro rfl
  obtain ⟨ds, d, _, _, hcan⟩ := encodeU_canonicalBytes (wireValue (cs ++ [0#8]))
  have hds : ds.length = cs.length := by
    have hcanlen := hcan.length
    rw [← hlen, List.length_append, List.length_singleton] at hcanlen
    omega
  obtain ⟨hlo, _, _, hpos⟩ := hcan.bounds
  have hd : 0 < d.toNat := hpos (by rwa [← List.length_pos_iff, hds, List.length_pos_iff])
  have hvalue : (wireValue (cs ++ [0#8])).toNat = wireNat cs := by
    rw [toNat_wireValue_of_wellFormedEncoding h, wireNat_concat]
    simp [payloadNat]
  have hsmall : 128 ^ cs.length ≤ wireNat cs :=
    calc 128 ^ cs.length ≤ 128 ^ ds.length * d.toNat := hds ▸ Nat.le_mul_of_pos_right _ hd
      _ ≤ wireNat cs := hvalue ▸ hlo
  exact absurd (wireNat_lt cs) (by omega)

/-- Settles O29: an encoding is well-formed and has the value it encodes, so it decodes to that value; and a well-formed
encoding of canonical length is canonical, so it is what `encodeU` writes. -/
theorem unsignedRoundTrip : Obligations.UnsignedRoundTrip := by
  obtain ⟨hencode, _, _⟩ := encoderEmitsTheOneCanonicalEncoding
  refine ⟨fun v rest => ?_, fun bs hbs => ⟨fun h => ?_, fun hlen => ?_⟩⟩
  · obtain ⟨hwf, hvalue, _, _⟩ := hencode v
    rw [decodeU_of_wellFormedEncoding hwf, hvalue]
  · obtain ⟨_, _, hlen, _⟩ := hencode (wireValue bs)
    rwa [h] at hlen
  · obtain ⟨cs, b, rfl⟩ := exists_concat rfl hbs
    obtain ⟨hroom, hcs, hlast, _⟩ := (wellFormedEncoding_concat cs b).1 hbs
    have hcan : CanonicalBytes (wireValue (cs ++ [b])).toNat cs b :=
      ⟨hcs, hlast, (toNat_wireValue_of_wellFormedEncoding hbs).symm, last_ne_zero_of_canonicalLength hbs hlen⟩
    exact encodeLoop_of_canonicalBytes hroom hcan

end Sys2Proof.Machine
end

section
/-!
The sign transform and the commands ZZ_ENC and ZZ_DEC (41_zigzag_signed.md R71 to R73): ZZE and ZZD as numbers, from
which their closed form follows and that they are inverse.
-/

namespace Sys2Proof.Machine

/-! ## ZZE and ZZD as numbers -/

/-- The arithmetic shift by 31 spreads the sign over the word. -/
theorem sshiftRight_31 (v : Word) : v.sshiftRight 31 = if 2 ^ 31 ≤ v.toNat then BitVec.allOnes 32 else 0#32 := by
  have hv := v.isLt
  have hmsb : v.msb = decide (2 ^ 31 ≤ v.toNat) := BitVec.msb_eq_decide v
  apply BitVec.eq_of_toNat_eq
  by_cases h : 2 ^ 31 ≤ v.toNat
  · rw [if_pos h, BitVec.toNat_sshiftRight_of_msb_true (hmsb.trans (decide_eq_true h)), Nat.shiftRight_eq_div_pow,
      Nat.div_eq_of_lt (by omega), BitVec.toNat_allOnes]
  · rw [if_neg h, BitVec.toNat_sshiftRight_of_msb_false (hmsb.trans (decide_eq_false h)), Nat.shiftRight_eq_div_pow,
      Nat.div_eq_of_lt (by omega), BitVec.toNat_zero]

/-- Negation spreads the lowest bit over the word. -/
theorem zero_sub_and_one (u : Word) :
    0#32 - (u &&& 1#32) = if u.toNat % 2 = 0 then 0#32 else BitVec.allOnes 32 := by
  apply BitVec.eq_of_toNat_eq
  have hbit : (u &&& 1#32).toNat = u.toNat % 2 := by rw [BitVec.toNat_and]; exact Nat.and_one_is_mod _
  rw [BitVec.toNat_sub, hbit]
  rcases Nat.mod_two_eq_zero_or_one u.toNat with h | h <;> simp [h]

/-- ZZE doubles a non-negative value, and complements the double of a negative one (R71). -/
theorem toNat_zze (v : Word) :
    (zze v).toNat = if 2 ^ 31 ≤ v.toNat then 2 ^ 33 - 1 - 2 * v.toNat else 2 * v.toNat := by
  have hv := v.isLt
  rw [zze, sshiftRight_31]
  split
  · rw [BitVec.xor_allOnes, BitVec.toNat_not, BitVec.toNat_shiftLeft]; omega
  · rw [BitVec.xor_zero, BitVec.toNat_shiftLeft]; omega

/-- ZZD halves an even pattern, and complements the half of an odd one (R72). -/
theorem toNat_zzd (u : Word) :
    (zzd u).toNat = if u.toNat % 2 = 0 then u.toNat / 2 else 2 ^ 32 - 1 - u.toNat / 2 := by
  rw [zzd, zero_sub_and_one]
  split
  · rw [BitVec.xor_zero, BitVec.toNat_ushiftRight, Nat.shiftRight_one]
  · rw [BitVec.xor_allOnes, BitVec.toNat_not, BitVec.toNat_ushiftRight, Nat.shiftRight_one]

theorem zzd_zze (v : Word) : zzd (zze v) = v := by
  apply BitVec.eq_of_toNat_eq
  have hv := v.isLt
  rw [toNat_zzd, toNat_zze]
  by_cases h : 2 ^ 31 ≤ v.toNat
  · rw [if_pos h, if_neg (by omega)]; omega
  · rw [if_neg h, if_pos (by omega)]; omega

theorem zze_zzd (u : Word) : zze (zzd u) = u := by
  apply BitVec.eq_of_toNat_eq
  have hu := u.isLt
  rw [toNat_zze, toNat_zzd]
  by_cases h : u.toNat % 2 = 0
  · rw [if_pos h, if_neg (by omega)]; omega
  · rw [if_neg h, if_pos (by omega)]; omega

/-- Settles O31: in each half of the patterns ZZE and ZZD are linear functions of the number, which undo each other. -/
theorem zigzagIsABijectionWithItsClosedForm : Obligations.ZigzagIsABijectionWithItsClosedForm := by
  refine ⟨zzd_zze, zze_zzd, fun v => ?_⟩
  have hv := v.isLt
  rw [u32, s32, toNat_zze, BitVec.toInt_eq_toNat_cond]
  by_cases h : 2 ^ 31 ≤ v.toNat
  · rw [if_pos h, if_neg (by omega)]; omega
  · rw [if_neg h, if_pos (by omega)]; omega

/-! ## The two commands -/

/-- Settles O10: ZZE's response is appended, and answering touches nothing else. -/
theorem zzEncRespondsAtAcceptance : Obligations.ZzEncRespondsAtAcceptance :=
  ⟨decode_zzEnc, fun s v => congrArg Host.Outcome.next (finish_zze (some (zze v)) s)⟩

/-- Settles O11: ZZD's response is appended, and answering touches nothing else. -/
theorem zzDecRespondsAtAcceptance : Obligations.ZzDecRespondsAtAcceptance :=
  ⟨decode_zzDec, fun s u => congrArg Host.Outcome.next (finish_zzd (some (zzd u)) s)⟩

end Sys2Proof.Machine
end

section
/-!
The signed commands (41_zigzag_signed.md R74 to R77): VENC_S is VENC_U of the zig-zag image, VDEC_S is VDEC_U with ZZD
behind it, and the one undoes the other.
-/

namespace Sys2Proof.Machine

/-! ## Acceptance and byte step -/

/-- Settles O12: the byte step is that of R63, with the clause for `dec_signed` 1. -/
theorem vdecSReadsByteByByte : Obligations.VdecSReadsByteByByte := by
  refine ⟨decode_vdecS, fun s => exec_vdecS_idle, fun s ts hb hsigned hts => ?_⟩
  obtain ⟨-, -, hturn⟩ := vdecUReadsByteByByte
  obtain ⟨hfault, hoverflow, hcontinues, -, hends⟩ := hturn s ts hb hts
  refine ⟨hfault, hoverflow, hcontinues, fun b rest acc hs ho hc hacc => ?_⟩
  rw [hends b rest hs ho hc hsigned, ← hacc, zzd]

/-- While ENC is idle, VENC_S is VENC_U of the zig-zag image (R75, R76). -/
theorem exec_vencS_eq_vencU {s : State} (h : s.encBusy = false) (v : Word) :
    exec (.vencS v) s = exec (.vencU (zze v)) s := by
  rw [exec_vencS_idle h, exec_vencU_idle h]; rfl

/-- Settles O13: acceptance applies ZZE, and the byte step is that of R67. -/
theorem vencSWritesTheZigzagImage : Obligations.VencSWritesTheZigzagImage := by
  obtain ⟨-, -, hturn⟩ := vencUWritesByteByByte
  exact ⟨decode_vencS, fun s v h => ⟨exec_vencS_idle h v, exec_vencS_eq_vencU h v⟩, hturn⟩

/-! ## Compositions -/

/-- The response of VDEC_S where VDEC_U responds `r`: the data passes through ZZD (R74, R76). -/
def Response.throughZzd (r : Response) : Response := ⟨r.status, r.data.map zzd, r.err⟩

/-- The state in which VDEC_S is in flight in place of VDEC_U, the responses so far being `rec`. -/
def State.signedTwin (s : State) (rec : List Delivery) : State := { s with decSigned := true, received := rec }

theorem decStep_decSigned (s : State) : (decStep s).decSigned = s.decSigned := by
  rw [decStep_frame]

/-- A byte step of VDEC_S is the byte step of VDEC_U, but that the response it brings has passed through ZZD (R76). -/
theorem decStep_signedTwin {s : State} (hu : s.decSigned = false) (rec : List Delivery) :
    ∃ rs : List Response, (decStep s).received = s.received ++ rs.map (⟨.dec, ·⟩) ∧
      decStep (s.signedTwin rec) = (decStep s).signedTwin (rec ++ rs.map (⟨.dec, ·.throughZzd⟩)) := by
  rcases decStep_cases s with ⟨h, hb | hs⟩ | ⟨e, rest, hb, hs, h⟩ | ⟨b, rest, hb, hs, hi, ho, h⟩ |
    ⟨b, rest, hb, hs, ho, hc, h⟩ | ⟨b, rest, hb, hs, ho, hc, h⟩ <;> rw [h]
  · exact ⟨[], by simp, by rw [decStep_idle (by exact hb)]; simp⟩
  · exact ⟨[], by simp, by rw [decStep_waits (by exact hs)]; simp⟩
  · exact ⟨[_], rfl, decStep_fault (by exact hb) (by exact hs)⟩
  · exact ⟨[_], rfl, decStep_overflow (by exact hb) (by exact hs) (by exact hi) ho⟩
  · exact ⟨[], by simp, by
      rw [decStep_continues (by exact hb) (by exact hs) (by exact ho) hc]
      simp [State.signedTwin]⟩
  · exact ⟨[_], rfl, by
      rw [decStep_ends (by exact hb) (by exact hs) (by exact ho) hc]
      simp [State.signedTwin, Response.throughZzd, hu, decResult]⟩

/-- Any number of byte steps of VDEC_S are those of VDEC_U, but that the responses they bring have passed through ZZD
(R76). -/
theorem decStep_iterate_signedTwin (n : Nat) {s : State} (hu : s.decSigned = false) (rec : List Delivery) :
    ∃ rs : List Response, (decStep^[n] s).received = s.received ++ rs.map (⟨.dec, ·⟩) ∧
      decStep^[n] (s.signedTwin rec) = (decStep^[n] s).signedTwin (rec ++ rs.map (⟨.dec, ·.throughZzd⟩)) := by
  induction n generalizing s rec with
  | zero => exact ⟨[], by simp, by simp⟩
  | succ n ih =>
    obtain ⟨rs, hreceived, htwin⟩ := decStep_signedTwin hu rec
    obtain ⟨rs', hreceived', htwin'⟩ := ih ((decStep_decSigned s).trans hu) _
    refine ⟨rs ++ rs', ?_, ?_⟩
    · rw [Function.iterate_succ_apply, hreceived', hreceived, List.map_append, List.append_assoc]
    · rw [Function.iterate_succ_apply, htwin, htwin', Function.iterate_succ_apply, List.map_append, List.append_assoc]

/-- Settles O32: ZZ_ENC answers the image from which VENC_S starts; and VDEC_S is accepted into the twin of the state
that VDEC_U is accepted into, which the turns of the source keep its twin. -/
theorem signedCommandsAreCompositions : Obligations.SignedCommandsAreCompositions := by
  refine ⟨fun s v h => ⟨zze v, congrArg Host.Outcome.next (finish_zze (some (zze v)) s), exec_vencS_eq_vencU h v⟩,
    fun n s tu ts hb htu hts => ?_⟩
  rw [exec_vdecU_idle hb] at htu
  rw [exec_vdecS_idle hb] at hts
  cases htu
  cases hts
  obtain ⟨rs, hreceived, htwin⟩ := decStep_iterate_signedTwin n (s := acceptDec .vdecU s) rfl s.received
  have hU := runSteps_srcTurns n (acceptDec .vdecU s) []
  have hS := runSteps_srcTurns n ((acceptDec .vdecU s).signedTwin s.received) []
  rw [acceptDec_received] at hreceived
  rw [List.append_nil] at hU hS
  refine ⟨{ decStep^[n] (acceptDec .vdecU s) with schedule := [] }, rs, ?_, ?_⟩
  · rw [hU, ← hreceived]
  · rwa [htwin] at hS

/-! ## The loopback -/

/-- A sink that acknowledges every byte takes them all (R69). -/
theorem pushAll_replicate_ack (bs : List Byte) (rest : List SnkAnswer) :
    pushAll bs (List.replicate bs.length .ack ++ rest) = some ⟨.ok, bs.map (⟨·, .ack⟩)⟩ := by
  induction bs with
  | nil => rfl
  | cons b bs ih => simp [List.replicate_succ, pushAll, ih]

theorem acknowledged_map_ack (bs : List Byte) : acknowledged (bs.map (⟨·, .ack⟩)) = bs := by
  induction bs with
  | nil => rfl
  | cons b bs ih => rw [List.map_cons, acknowledged, ih]

theorem answeredBytes_map_byte (bs : List Byte) : answeredBytes (bs.map .byte) = bs := by
  induction bs with
  | nil => rfl
  | cons b bs ih => rw [List.map_cons, answeredBytes, ih]

/-- VENC_S to a sink that acknowledges the whole encoding (R75). -/
theorem vencS_acknowledged {s : State} {v : Word} {acks : List SnkAnswer} (hb : s.encBusy = false)
    (hsink : s.sink = List.replicate (encodeU (zze v)).length .ack ++ acks) :
    ∃ t u, exec (.vencS v) s = .next t ∧
      runSteps (encodeU (zze v)).length
        { t with schedule := List.replicate (encodeU (zze v)).length snkTurn } = .next u ∧
      u.offers = s.offers ++ (encodeU (zze v)).map (⟨·, .ack⟩) ∧
      u.received = s.received ++ [⟨.enc, ⟨.ok, none, none⟩⟩] ∧
      u.consumed = s.consumed ∧ u.decBusy = s.decBusy ∧ u.encBusy = false := by
  obtain ⟨-, hencode⟩ := encodeRunPushesEncodeU s [] v hb
  obtain ⟨t, idx, rem, hexec, hrun⟩ := hencode _ (hsink ▸ pushAll_replicate_ack _ acks)
  rw [List.length_map, List.append_nil] at hrun
  exact ⟨t, _, hexec, hrun, rfl, rfl, rfl, rfl, hb⟩

/-- VDEC_S from the encoding of a zig-zag image (R70, R73, R74). -/
theorem vdecS_encodeU_zze {s : State} {v : Word} (hb : s.decBusy = false)
    (hsource : s.source = (encodeU (zze v)).map .byte) :
    ∃ t u, exec .vdecS s = .next t ∧
      runSteps (encodeU (zze v)).length
        { t with schedule := List.replicate (encodeU (zze v)).length srcTurn } = .next u ∧
      u.received = s.received ++ [⟨.dec, ⟨.ok, some v, none⟩⟩] ∧
      u.source = [] ∧ u.consumed = s.consumed ++ encodeU (zze v) ∧ u.decBusy = false ∧ u.encBusy = s.encBusy := by
  obtain ⟨hround, -⟩ := unsignedRoundTrip
  have hdecode : decodeU s.source = some ⟨.ok (zze v), (encodeU (zze v)).length⟩ := by
    rw [hsource, ← List.append_nil (List.map _ _), hround]
  obtain ⟨-, t, idx, acc, hexec, hrun⟩ := decodeRunComputesDecodeU s [] _ hb hdecode
  rw [List.append_nil] at hrun
  refine ⟨t, _, hexec, hrun, ?_, ?_, ?_, hb, rfl⟩
  · simp [DecodeOutcome.response, decResult, zzd_zze]
  · simp [DecodeResult.pulls, hsource]
  · simp [DecodeResult.pulls, hsource, ← List.map_take, answeredBytes_map_byte]

/-- Settles O33: the bytes the sink has acknowledged are the encoding of the zig-zag image, which VDEC_S reads back. -/
theorem signedLoopbackRecoversTheValue : Obligations.SignedLoopbackRecoversTheValue := by
  intro s v acks henc hdec hsink
  obtain ⟨t, u, hvencS, hpushes, hoffers, hreceived, hconsumed, hdecBusy, hencBusy⟩ := vencS_acknowledged henc hsink
  have hacked : acknowledged (u.offers.drop s.offers.length) = encodeU (zze v) := by
    rw [hoffers, List.drop_left, acknowledged_map_ack]
  rw [← hdecBusy] at hdec
  obtain ⟨w, x, hvdecS, hpulls, hreceived', hsource', hconsumed', hdecBusy', hencBusy'⟩ :=
    vdecS_encodeU_zze (v := v) (s := { u with source := (encodeU (zze v)).map .byte }) hdec rfl
  refine ⟨t, u, w, x, hvencS, hpushes, by rw [hacked]; exact hvdecS, hpulls, ?_, hsource', ?_, hdecBusy', ?_⟩
  · rw [hreceived', hreceived, List.append_assoc]; rfl
  · rw [hconsumed', hconsumed]
  · rw [hencBusy', hencBusy]

end Sys2Proof.Machine
end

section
/-!
Availability of the commands (60_exceptions.md R88): a sequential unit accepts or holds what it is offered, a combinational
unit answers at once, and neither can fault.
-/

namespace Sys2Proof.Machine

/-- Settles O15: offering is total for every unit, and the two commands that no unit takes are not well-formed. -/
theorem everyCommandIsAvailableInEveryState : Obligations.EveryCommandIsAvailableInEveryState := by
  intro i s hwf
  cases i with
  | vdecU => exact ⟨offerDec .vdecU s, rfl⟩
  | vencU v => exact ⟨offerEnc (.vencU v) s, rfl⟩
  | zzEnc v => exact ⟨finish .zze (some (zze v)) s, rfl⟩
  | zzDec u => exact ⟨finish .zzd (some (zzd u)) s, rfl⟩
  | vdecS => exact ⟨offerDec .vdecS s, rfl⟩
  | vencS v => exact ⟨offerEnc (.vencS v) s, rfl⟩
  | reserved110 => cases hwf
  | reserved111 => cases hwf

end Sys2Proof.Machine
end

section
/-!
Waiting and reset (70_reset_and_hazards.md R94, R95, R105): a unit whose collaborator does not answer keeps its side of the
state in every move, so only a reset ends its operation; and a reset makes no move.
-/

namespace Sys2Proof.Machine

/-! ## Runs without a reset -/

theorem exec_schedule {i : Instr} {s t : State} (h : exec i s = .next t) : t.schedule = s.schedule := by
  rcases exec_cases h with ⟨c, rfl⟩ | ⟨c, rfl⟩ | ⟨v, rfl⟩ | ⟨u, rfl⟩
  · rcases offerDec_cases c s with ⟨_, ho⟩ | ⟨_, ho⟩ <;> rw [ho]
    rfl
  · rcases offerEnc_cases c s with ⟨_, ho⟩ | ⟨_, ho⟩ <;> rw [ho]
    rfl
  · rfl
  · rfl

/-- A move has used up its turn and touches no other: whether a reset is to come does not depend on it. -/
theorem runMove_schedule {m : Move} {s t : State} (h : runMove m s = .next t) : t.schedule = s.schedule := by
  cases m with
  | request =>
    rcases runMove_request_cases h with rfl | ⟨i, ws, he⟩
    · rfl
    · exact exec_schedule (s := { s with requests := ws }) he
  | acceptDec k =>
    cases h
    rcases acceptHeldDec_cases k s with ⟨_, c, _, ha⟩ | ⟨ha, _⟩ <;> rw [ha]
    rfl
  | acceptEnc k =>
    cases h
    rcases acceptHeldEnc_cases k s with ⟨_, c, _, ha⟩ | ⟨ha, _⟩ <;> rw [ha]
    rfl
  | srcAnswer => cases h; rw [decStep_frame s]
  | snkAnswer => cases h; rw [encStep_frame s]
  | read k f =>
    obtain ⟨_, _, _, _, rfl⟩ := readField_next h
    rfl

/-- A run of `n + 1` steps that answers next is a step that does, and then a run of `n`. -/
theorem runSteps_succ_cases {n : Nat} {s t : State} (h : runSteps (n + 1) s = .next t) :
    ∃ u, step s = .next u ∧ runSteps n u = .next t := by
  cases hs : step s with
  | next u => exact ⟨u, rfl, by rwa [runSteps_succ n hs] at h⟩
  | fault r => simp [runSteps, hs] at h
  | refused r => simp [runSteps, hs] at h

/-- What each move keeps, and what does not look at the schedule, a run without a reset keeps. -/
theorem runSteps_keeps_of_noReset {P : State → Prop} (hsched : ∀ s ts, P s → P { s with schedule := ts })
    (hmove : ∀ m s t, P s → runMove m s = .next t → P t) {n : Nat} {s t : State}
    (hnoReset : ∀ turn ∈ s.schedule, turn.reset = false) (hs : P s) (h : runSteps n s = .next t) : P t := by
  induction n generalizing s with
  | zero => cases h; exact hs
  | succ n ih =>
    obtain ⟨u, hstep, hrun⟩ := runSteps_succ_cases h
    rcases hsch : s.schedule with _ | ⟨⟨_ | _, m⟩, ts⟩
    · rw [step_noTurn hsch] at hstep
      cases hstep
      exact ih hnoReset hs hrun
    · rw [step_move hsch] at hstep
      have hts : ∀ turn ∈ u.schedule, turn.reset = false := by
        rw [runMove_schedule hstep]
        exact fun turn ht => hnoReset turn (by simp [hsch, ht])
      exact ih hts (hmove m _ u (hsched s ts hs) hstep) hrun
    · cases hnoReset ⟨true, m⟩ (by simp [hsch])

/-! ## A unit's side of the state -/

/-- All that DEC's operation reads and writes, and the responses DEC has brought (R18, R42). -/
structure DecSide where
  busy : Bool
  idx : BitVec 3
  acc : Word
  signed : Bool
  source : List SrcAnswer
  consumed : List Byte
  responses : List Response

def State.decSide (s : State) : DecSide :=
  ⟨s.decBusy, s.decIdx, s.decAcc, s.decSigned, s.source, s.consumed, s.responsesOf .dec⟩

/-- All that ENC's operation reads and writes, and the responses ENC has brought (R19, R42). -/
structure EncSide where
  busy : Bool
  idx : BitVec 3
  rem : Word
  sink : List SnkAnswer
  offers : List Push
  responses : List Response

def State.encSide (s : State) : EncSide :=
  ⟨s.encBusy, s.encIdx, s.encRem, s.sink, s.offers, s.responsesOf .enc⟩

/-! ## DEC waits for the source -/

theorem respond_decSide {u : UnitName} (hu : u ≠ .dec) (r : Response) (s : State) :
    (s.respond u r).decSide = s.decSide := by
  simp [State.decSide, State.responsesOf, hu]

theorem offerEnc_decSide (c : EncRequest) (s : State) : (offerEnc c s).decSide = s.decSide := by
  rcases offerEnc_cases c s with ⟨_, h⟩ | ⟨_, h⟩ <;> rw [h] <;> rfl

theorem acceptHeldEnc_decSide (k : Nat) (s : State) : (acceptHeldEnc k s).decSide = s.decSide := by
  rcases acceptHeldEnc_cases k s with ⟨_, c, _, h⟩ | ⟨h, _⟩ <;> rw [h]
  rfl

theorem encStep_decSide (s : State) : (encStep s).decSide = s.decSide := by
  obtain ⟨rs, hr⟩ := encStep_received s
  have hresponses : (encStep s).responsesOf .dec = s.responsesOf .dec := by simp [responsesOf_append hr]
  rw [State.decSide, hresponses, encStep_frame s]
  rfl

/-- A busy DEC holds what it is offered; the other units' commands are not DEC's. -/
theorem exec_decSide {i : Instr} {s t : State} (hb : s.decBusy = true) (h : exec i s = .next t) :
    t.decSide = s.decSide := by
  rcases exec_cases h with ⟨c, rfl⟩ | ⟨c, rfl⟩ | ⟨v, rfl⟩ | ⟨u, rfl⟩
  · rw [offerDec_busy hb]; rfl
  · exact offerEnc_decSide c s
  · exact respond_decSide (u := .zze) nofun _ s
  · exact respond_decSide (u := .zzd) nofun _ s

/-- No move of any agent touches DEC's side while DEC waits for the source (R105). -/
theorem runMove_decSide {m : Move} {s t : State} (hb : s.decBusy = true) (hs : s.source = [])
    (h : runMove m s = .next t) : t.decSide = s.decSide := by
  cases m with
  | request =>
    rcases runMove_request_cases h with rfl | ⟨i, ws, he⟩
    · rfl
    · exact exec_decSide (s := { s with requests := ws }) hb he
  | acceptDec k => cases h; rw [acceptHeldDec_busy hb]
  | acceptEnc k => cases h; exact acceptHeldEnc_decSide k s
  | srcAnswer => cases h; rw [decStep_waits hs]
  | snkAnswer => cases h; exact encStep_decSide s
  | read k f =>
    obtain ⟨_, _, _, _, rfl⟩ := readField_next h
    rfl

theorem runSteps_decSide {n : Nat} {s t : State} (hnoReset : ∀ turn ∈ s.schedule, turn.reset = false)
    (hb : s.decBusy = true) (hs : s.source = []) (h : runSteps n s = .next t) : t.decSide = s.decSide := by
  refine runSteps_keeps_of_noReset (P := fun u => u.decSide = s.decSide) (fun _ _ hu => hu)
    (fun m u v hu hm => ?_) hnoReset rfl h
  have hbu : u.decBusy = true := (congrArg DecSide.busy hu).trans hb
  have hsu : u.source = [] := (congrArg DecSide.source hu).trans hs
  exact (runMove_decSide hbu hsu hm).trans hu

/-! ## ENC waits for the sink -/

theorem respond_encSide {u : UnitName} (hu : u ≠ .enc) (r : Response) (s : State) :
    (s.respond u r).encSide = s.encSide := by
  simp [State.encSide, State.responsesOf, hu]

theorem offerDec_encSide (c : DecRequest) (s : State) : (offerDec c s).encSide = s.encSide := by
  rcases offerDec_cases c s with ⟨_, h⟩ | ⟨_, h⟩ <;> rw [h] <;> rfl

theorem acceptHeldDec_encSide (k : Nat) (s : State) : (acceptHeldDec k s).encSide = s.encSide := by
  rcases acceptHeldDec_cases k s with ⟨_, c, _, h⟩ | ⟨h, _⟩ <;> rw [h]
  rfl

theorem decStep_encSide (s : State) : (decStep s).encSide = s.encSide := by
  obtain ⟨rs, hr⟩ := decStep_received s
  have hresponses : (decStep s).responsesOf .enc = s.responsesOf .enc := by simp [responsesOf_append hr]
  rw [State.encSide, hresponses, decStep_frame s]
  rfl

/-- A busy ENC holds what it is offered; the other units' commands are not ENC's. -/
theorem exec_encSide {i : Instr} {s t : State} (hb : s.encBusy = true) (h : exec i s = .next t) :
    t.encSide = s.encSide := by
  rcases exec_cases h with ⟨c, rfl⟩ | ⟨c, rfl⟩ | ⟨v, rfl⟩ | ⟨u, rfl⟩
  · exact offerDec_encSide c s
  · rw [offerEnc_busy hb]; rfl
  · exact respond_encSide (u := .zze) nofun _ s
  · exact respond_encSide (u := .zzd) nofun _ s

/-- No move of any agent touches ENC's side while ENC waits for the sink (R105). -/
theorem runMove_encSide {m : Move} {s t : State} (hb : s.encBusy = true) (hs : s.sink = [])
    (h : runMove m s = .next t) : t.encSide = s.encSide := by
  cases m with
  | request =>
    rcases runMove_request_cases h with rfl | ⟨i, ws, he⟩
    · rfl
    · exact exec_encSide (s := { s with requests := ws }) hb he
  | acceptDec k => cases h; exact acceptHeldDec_encSide k s
  | acceptEnc k => cases h; rw [acceptHeldEnc_busy hb]
  | srcAnswer => cases h; exact decStep_encSide s
  | snkAnswer => cases h; rw [encStep_waits hs]
  | read k f =>
    obtain ⟨_, _, _, _, rfl⟩ := readField_next h
    rfl

theorem runSteps_encSide {n : Nat} {s t : State} (hnoReset : ∀ turn ∈ s.schedule, turn.reset = false)
    (hb : s.encBusy = true) (hs : s.sink = []) (h : runSteps n s = .next t) : t.encSide = s.encSide := by
  refine runSteps_keeps_of_noReset (P := fun u => u.encSide = s.encSide) (fun _ _ hu => hu)
    (fun m u v hu hm => ?_) hnoReset rfl h
  have hbu : u.encBusy = true := (congrArg EncSide.busy hu).trans hb
  have hsu : u.sink = [] := (congrArg EncSide.sink hu).trans hs
  exact (runMove_encSide hbu hsu hm).trans hu

/-- Settles O19: a run without a reset leaves the waiting unit's side as it was, and the fields of the statement lie on that
side. -/
theorem unansweredUnitWaitsForEver : Obligations.UnansweredUnitWaitsForEver := by
  intro n s t hnoReset hrun
  refine ⟨fun hb hs => ?_, fun hb hs => ?_⟩
  · have h := runSteps_decSide hnoReset hb hs hrun
    exact ⟨(congrArg DecSide.busy h).trans hb, congrArg DecSide.idx h, congrArg DecSide.acc h,
      congrArg DecSide.signed h, congrArg DecSide.consumed h, congrArg DecSide.responses h⟩
  · have h := runSteps_encSide hnoReset hb hs hrun
    exact ⟨(congrArg EncSide.busy h).trans hb, congrArg EncSide.idx h, congrArg EncSide.rem h,
      congrArg EncSide.offers h, congrArg EncSide.responses h⟩

/-! ## Reset -/

/-- Settles O35: a turn with reset is `resetBlock` and no move, and the registers take the values of `State.reset`. -/
theorem resetTakesPriorityOverEveryMove : Obligations.ResetTakesPriorityOverEveryMove := by
  intro s m ts h
  exact ⟨State.reset.decIdx, State.reset.decAcc, State.reset.decSigned, State.reset.encIdx, State.reset.encRem,
    step_reset h⟩

end Sys2Proof.Machine
end
